-- ==== Sys2Proof/Word.lean ====
section
/-! DEFINITION. The widths the SM4 cipher core handles data at (R40): the byte, the 32-bit word, the 16-byte block, and the
file of 32 round keys (R11). -/

namespace Sys2Proof

/-- A byte, bits 7 down to 0 (R6). -/
abbrev Byte := BitVec 8

/-- A 32-bit unsigned word, bits 31 down to 0 (R6). -/
abbrev Word := BitVec 32

/-- Exactly 16 bytes, byte 0 first: a Block, or a MasterKey (R4, R39). The length is part of the type, so the functions the
spec defines on 16 bytes only (R92, R103) take nothing else. -/
abbrev Block := Vector Byte 16

/-- Exactly 32 words: a RoundKeySet (R11). -/
abbrev RoundKeys := Vector Word 32

end Sys2Proof
end

