-- ==== Sys2Proof/Config.lean ====
section
/-! DEFINITION. What an implementation fixes (R5) and the free value of an unspecified register (R24, U7). -/

namespace Sys2Proof

/-- A padding block size in the domain on which the padding functions are defined, `1 ≤ bs ≤ 255` (R115, D28, U14): outside it
there is no value of this type. -/
structure BlockSize where
  size : Nat
  pos : 1 ≤ size
  le : size ≤ 255
  deriving DecidableEq, Repr

/-- `PAD_BS` = 16, the only block size a command uses (R4). -/
def Config.padBs : BlockSize := ⟨16, by decide, by decide⟩

/-- `MAX_BUF_LEN` at the spec's default, 2^32 − 17 (R5, R57). DESIGN CHOICE, unsafe for a device built with a smaller value (log 6):
the decoder `decodeWith` takes it as an argument. -/
def Config.maxBufLen : Nat := 4294967279

/-- The free words: what an unspecified register holds after a Reset event (R24, R180, U7). No body, so nothing can be proved of
its values; safe (log 5). -/
opaque Config.freeWord : Nat → Word

end Sys2Proof
end

