-- ==== Sys2Proof/Machine/Operands.lean ====
section
/-! DEFINITION. The operand forms: bytes, words and blocks, big-endian everywhere (R30 to R34), the length test on a 16-byte
operand (R39), and the cutting of a buffer into blocks (R43). -/

namespace Sys2Proof.Machine

/-- `byte0(w) = w[31:24]`, the most significant byte (R6). -/
def byte0 (w : Word) : Byte := w.extractLsb' 24 8

/-- `byte1(w) = w[23:16]` (R6). -/
def byte1 (w : Word) : Byte := w.extractLsb' 16 8

/-- `byte2(w) = w[15:8]` (R6). -/
def byte2 (w : Word) : Byte := w.extractLsb' 8 8

/-- `byte3(w) = w[7:0]`, the least significant byte (R6). -/
def byte3 (w : Word) : Byte := w.extractLsb' 0 8

/-- `BE32` (R31): the byte that comes first is the most significant. -/
def be32 (b0 b1 b2 b3 : Byte) : Word := b0 ++ b1 ++ b2 ++ b3

/-- `UNBE32` (R32). -/
def unbe32 (w : Word) : List Byte := [byte0 w, byte1 w, byte2 w, byte3 w]

/-- Four consecutive words of an engine, oldest first: the sliding window of R82, and the 4-tuple of R33. -/
structure Window where
  a0 : Word
  a1 : Word
  a2 : Word
  a3 : Word
  deriving DecidableEq, Repr

/-- `Unpack4` (R33): bytes 0 to 3 make `W0`, …, bytes 12 to 15 make `W3`. -/
def unpack4 (b : Block) : Window where
  a0 := be32 b[0] b[1] b[2] b[3]
  a1 := be32 b[4] b[5] b[6] b[7]
  a2 := be32 b[8] b[9] b[10] b[11]
  a3 := be32 b[12] b[13] b[14] b[15]

/-- `Pack4(W0, W1, W2, W3) = UNBE32(W0) || UNBE32(W1) || UNBE32(W2) || UNBE32(W3)` (R34). -/
def pack4 (w0 w1 w2 w3 : Word) : Block :=
  ⟨⟨unbe32 w0 ++ unbe32 w1 ++ unbe32 w2 ++ unbe32 w3⟩, rfl⟩

/-- The length test on a key or a block operand (R39): the 16 bytes, or nothing when there are more or fewer. Nothing is
truncated or extended. -/
def toBlock (b : List Byte) : Option Block :=
  if h : b.length = 16 then some ⟨⟨b⟩, h⟩ else none

/-- The first `n` consecutive 16-byte blocks of a buffer, block `j` being bytes `16·j` to `16·j + 15` (R43). It stops where fewer
than 16 bytes are left, which a buffer of `16·n` bytes never brings about. -/
def takeBlocks : Nat → List Byte → List Block
  | 0, _ => []
  | n + 1, b =>
    match toBlock (b.take 16) with
    | none => []
    | some blk => blk :: takeBlocks n (b.drop 16)

/-- The blocks of a buffer whose length is a multiple of 16 (R43). -/
def splitBlocks (b : List Byte) : List Block := takeBlocks (b.length / 16) b

/-- The blocks put end to end, in block order (R43). -/
def joinBlocks : List Block → List Byte
  | [] => []
  | b :: bs => b.toList ++ joinBlocks bs

/-- `RKD[i] = RK[31 − i]`, the decryption-order view of a round-key set (R12): the same words in reverse order. -/
def reversedKeys (rk : RoundKeys) : RoundKeys :=
  ⟨⟨rk.toList.reverse⟩, by simp⟩

end Sys2Proof.Machine
end

