-- ==== Sys2Proof/Syntax.lean ====
section
/-! DEFINITION. The command terms: one constructor per row of spec/opcode_table.json (R53), carrying its operands `KEY` and
`DATA` as byte lists of any length (30_encoding.md, opening; R39: the length checks are the commands' own). -/

namespace Sys2Proof

/-- The nine commands of R53. -/
inductive Instr where
  /-- 0x01 `CONSTRUCT`: load the context from a master key (R93). -/
  | construct (key : List Byte)
  /-- 0x02 `ENCRYPT_BLOCK`: encrypt one block under the context (R104). -/
  | encryptBlock (data : List Byte)
  /-- 0x03 `DECRYPT_BLOCK`: decrypt one block under the context (R105). -/
  | decryptBlock (data : List Byte)
  /-- 0x04 `ENCRYPT_ECB`: pad and encrypt a buffer under the key in the frame (R134). -/
  | encryptEcb (key data : List Byte)
  /-- 0x05 `DECRYPT_ECB`: decrypt and unpad a buffer under the key in the frame (R135). -/
  | decryptEcb (key data : List Byte)
  /-- 0x06 `ENCRYPT_ECB_CTX`: pad and encrypt a buffer under the context (R136). -/
  | encryptEcbCtx (data : List Byte)
  /-- 0x07 `DECRYPT_ECB_CTX`: decrypt and unpad a buffer under the context (R137). -/
  | decryptEcbCtx (data : List Byte)
  /-- 0x08 `PAD`: the padding encoder alone (R118). -/
  | pad (data : List Byte)
  /-- 0x09 `UNPAD`: the padding decoder alone (R119). -/
  | unpad (data : List Byte)
  deriving DecidableEq, Repr

/-- The `KEY` operand; empty for a command that has none (R54, R60). -/
def Instr.key : Instr → List Byte
  | .construct key => key
  | .encryptBlock _ => []
  | .decryptBlock _ => []
  | .encryptEcb key _ => key
  | .decryptEcb key _ => key
  | .encryptEcbCtx _ => []
  | .decryptEcbCtx _ => []
  | .pad _ => []
  | .unpad _ => []

/-- The `DATA` operand; empty for a command that has none (R54, R60). -/
def Instr.data : Instr → List Byte
  | .construct _ => []
  | .encryptBlock data => data
  | .decryptBlock data => data
  | .encryptEcb _ data => data
  | .decryptEcb _ data => data
  | .encryptEcbCtx data => data
  | .decryptEcbCtx data => data
  | .pad data => data
  | .unpad data => data

end Sys2Proof
end

