-- ==== Sys2Proof/WellFormed.lean ====
section
/-! DEFINITION. Which command terms a frame can carry (R60): a key of at most 255 bytes and data of at most `MAX_BUF_LEN` bytes.
A wrong key or block length is NOT ill-formed: it is a legal frame whose command answers a failure (R54). -/

namespace Sys2Proof

/-- The key fits the 8-bit `KLEN` field (R50, R51). -/
def Instr.keyFits (i : Instr) : Bool := i.key.length ≤ 255

/-- The data is within `MAX_BUF_LEN` (R57). -/
def Instr.dataFits (maxBuf : Nat) (i : Instr) : Bool := i.data.length ≤ maxBuf

/-- The command terms a frame can carry when `MAX_BUF_LEN` is `maxBuf` (R60). -/
def Instr.wellFormedFor (maxBuf : Nat) (i : Instr) : Bool := i.keyFits && i.dataFits maxBuf

/-- The command terms a frame of this machine can carry. -/
def Instr.wellFormed (i : Instr) : Bool := i.wellFormedFor Config.maxBufLen

end Sys2Proof
end

