-- ==== Sys2Proof/Decode.lean ====
section
/-! DEFINITION. The decoder of command frames, total on any bytes (R58, R59), the encoder (R60), and the opcode table's numbering of a
frame's header (30_encoding.md, opening; log 7). -/

namespace Sys2Proof

/-- Why a frame is illegal, cases (a) to (e) of R58 in the order they are tested. All five are answered alike. -/
inductive Illegal where
  /-- (a) fewer than 6 bytes. -/
  | tooShort
  /-- (b) the opcode is not one of 0x01 to 0x09. -/
  | reservedOpcode
  /-- (c) `DLEN > MAX_BUF_LEN`. -/
  | dataTooLong
  /-- (d) the byte count is not `6 + KLEN + DLEN`. -/
  | wrongLength
  /-- (e) a length field that R54 requires to be zero is not. -/
  | unusedLength
  deriving DecidableEq, Repr

/-- The command an opcode with its operands stands for (R53, R59): a reserved opcode is rejected, and so is an operand the command does
not take (R54). -/
def commandOf (op : Byte) (key data : List Byte) : Except Illegal Instr :=
  match op.toNat with
  | 1 => if data.isEmpty then .ok (.construct key) else .error .unusedLength
  | 2 => if key.isEmpty then .ok (.encryptBlock data) else .error .unusedLength
  | 3 => if key.isEmpty then .ok (.decryptBlock data) else .error .unusedLength
  | 4 => .ok (.encryptEcb key data)
  | 5 => .ok (.decryptEcb key data)
  | 6 => if key.isEmpty then .ok (.encryptEcbCtx data) else .error .unusedLength
  | 7 => if key.isEmpty then .ok (.decryptEcbCtx data) else .error .unusedLength
  | 8 => if key.isEmpty then .ok (.pad data) else .error .unusedLength
  | 9 => if key.isEmpty then .ok (.unpad data) else .error .unusedLength
  | _ => .error .reservedOpcode

/-- `Decode(f)` (R58, R59) with `MAX_BUF_LEN` as an argument (R5, U13). The operands are assembled as R51 says: `KEY` is the first `KLEN`
bytes after the header, `DATA` the rest. -/
def decodeWith (maxBuf : Nat) (f : List Byte) : Except Illegal Instr :=
  match f with
  | op :: klen :: d0 :: d1 :: d2 :: d3 :: rest =>
    let dlen := (Machine.be32 d0 d1 d2 d3).toNat
    if op.toNat < 0x01 ∨ 0x09 < op.toNat then .error .reservedOpcode
    else if maxBuf < dlen then .error .dataTooLong
    else if rest.length ≠ klen.toNat + dlen then .error .wrongLength
    else commandOf op (rest.take klen.toNat) (rest.drop klen.toNat)
  | _ => .error .tooShort

/-- This machine's decoder. -/
def decode (f : List Byte) : Except Illegal Instr := decodeWith Config.maxBufLen f

/-- The opcode numbers (R53). -/
def Instr.opcode : Instr → Byte
  | .construct _ => 0x01
  | .encryptBlock _ => 0x02
  | .decryptBlock _ => 0x03
  | .encryptEcb _ _ => 0x04
  | .decryptEcb _ _ => 0x05
  | .encryptEcbCtx _ => 0x06
  | .decryptEcbCtx _ => 0x07
  | .pad _ => 0x08
  | .unpad _ => 0x09

/-- A frame from its fields (R50): `OPCODE || KLEN || DLEN || KEY || DATA`. DESIGN CHOICE, safe (log 12): the spec gives no frame to a key
of more than 255 bytes (R51) or to data of more than 2^32 − 1 bytes; here `KLEN` is then the key's length modulo 256 and `DLEN` the data's
length modulo 2^32. -/
def frameOf (op : Byte) (key data : List Byte) : List Byte :=
  op :: BitVec.ofNat 8 key.length :: Machine.unbe32 (BitVec.ofNat 32 data.length) ++ key ++ data

/-- `Encode(c)` (R60); of a term that no frame can carry, see `frameOf`. -/
def encode (i : Instr) : List Byte := frameOf i.opcode i.key i.data

/-- The `n` bytes of `w`, most significant first. -/
def bytesMsbFirst : Nat → Nat → List Byte
  | 0, _ => []
  | n + 1, w => BitVec.ofNat 8 (w >>> (8 * n)) :: bytesMsbFirst n w

/-- A list of bytes made at least `n` long with zero bytes at its end. -/
def zeroExtendTo (n : Nat) (b : List Byte) : List Byte := b ++ List.replicate (n - b.length) 0

/-- The byte count a frame's header announces, `6 + KLEN + DLEN` (R52); just the header's 6 where there is no header. -/
def announcedLength : List Byte → Nat
  | _ :: klen :: d0 :: d1 :: d2 :: d3 :: _ => 6 + klen.toNat + (Machine.be32 d0 d1 d2 d3).toNat
  | _ => 6

/-- The frame of an opcode-table word: the table's 48-bit header has frame byte 0 in bits 47:40 and so on down to frame byte 5 in bits
7:0, and the operand bytes the header announces are zeros (30_encoding.md, opening; log 7). -/
def tableFrame (nbits w : Nat) : List Byte :=
  let header := zeroExtendTo 6 (bytesMsbFirst (nbits / 8) w)
  zeroExtendTo (announcedLength header) header

/-- The command this decoder reads from an opcode-table word. -/
def decodeTableWord (nbits w : Nat) : Option Instr :=
  match decode (tableFrame nbits w) with
  | .ok i => some i
  | .error _ => none

end Sys2Proof
end

