-- ==== Sys2Proof/Machine/Datapath.lean ====
section
/-! DEFINITION. The round-transform datapath (R70 to R82): rotation, substitution, diffusions, combinators, the XOR merge and the
sliding window. Pure functions; none can fail and none touches the state. -/

namespace Sys2Proof.Machine

/-- `rotl(x, n)`, for `0 ≤ n ≤ 31` (R70). -/
def rotl (x : Word) (n : Nat) : Word := (x <<< n) ||| (x >>> (32 - n))

/-- `tau`, the source's τ (R76): each of the four bytes through the S-box, in its place. -/
def tau (x : Word) : Word := be32 (sbox (byte0 x)) (sbox (byte1 x)) (sbox (byte2 x)) (sbox (byte3 x))

/-- `L`, the encryption diffusion (R77). -/
def diffL (b : Word) : Word := b ^^^ rotl b 2 ^^^ rotl b 10 ^^^ rotl b 18 ^^^ rotl b 24

/-- `Lp`, the source's L′, the key-schedule diffusion (R78). -/
def diffLp (b : Word) : Word := b ^^^ rotl b 13 ^^^ rotl b 23

/-- `T = L ∘ τ` (R79). -/
def combT (x : Word) : Word := diffL (tau x)

/-- `Tp`, the source's T′ = L′ ∘ τ (R80). -/
def combTp (x : Word) : Word := diffLp (tau x)

/-- `RoundF(A0, A1, A2, A3, c) = A0 ^ T(A1 ^ A2 ^ A3 ^ c)`, the block transform's round (R81). -/
def roundF (w : Window) (c : Word) : Word := w.a0 ^^^ combT (w.a1 ^^^ w.a2 ^^^ w.a3 ^^^ c)

/-- `RoundFp(A0, A1, A2, A3, c) = A0 ^ Tp(A1 ^ A2 ^ A3 ^ c)`, the key schedule's round (R81). -/
def roundFp (w : Window) (c : Word) : Word := w.a0 ^^^ combTp (w.a1 ^^^ w.a2 ^^^ w.a3 ^^^ c)

/-- The window one word further on (R82). -/
def Window.slide (w : Window) (next : Word) : Window := ⟨w.a1, w.a2, w.a3, next⟩

end Sys2Proof.Machine
end

