-- ==== Sys2Proof/Machine/State.lean ====
section
/-! DEFINITION. The state of the core (R10) with the host's side of the interface made into data (R186, R193; log 1, log 2), the
reasons a step could stop (there is none, R191; log 9), and the state right after reset (R24, R180). -/

namespace Sys2Proof.Machine

/-- What the host can do to the core (R186): deliver one delimited frame of any bytes, or reset it between commands. -/
inductive Event where
  /-- The Reset event (R180). -/
  | reset
  /-- One delimited command frame (R50). -/
  | frame (bytes : List Byte)
  deriving DecidableEq, Repr

/-- Faults: none. Every byte sequence presented as a frame is answered (R58), every command ends (R191) and a failure is a response
(R153), so nothing stops this machine. Nobody raises one; safe (log 9). -/
inductive Fault : Type
  deriving DecidableEq, Repr

/-- Refusals: a command without a meaning; no arm of exec answers with it, since all nine commands are modelled (log 9). -/
inductive Refusal : Type where
  /-- Raised by an arm of exec for a command that has no meaning yet; safe. No arm raises it. -/
  | notModelled (mnemonic : String)
  deriving DecidableEq, Repr

/-- The state. `keyValid` and `rk` are the whole of the spec's architectural state (R10); the other three fields are the model's. -/
structure State where
  /-- `KEY_VALID`, 1 bit (R14). -/
  keyValid : Bool
  /-- `RK[0..31]`, 32 bits each (R11). -/
  rk : RoundKeys
  /-- The events the host has still to deliver, next first (R186, R193; log 1). The model's own field. -/
  events : List Event
  /-- The response frames sent so far, oldest first (R55, R193; log 2). The model's own field. -/
  responses : List (List Byte)
  /-- How many free words a Reset event has taken from `Config.freeWord` (R24; log 5). The model's own field. -/
  freshCount : Nat
  deriving DecidableEq, Repr

/-- The machine right after reset (R24, R180): `KEY_VALID = 0`, nothing delivered, nothing sent. The spec gives `RK` no value; zero is
a DESIGN CHOICE, unsafe (log 4). -/
def State.reset : State where
  keyValid := false
  rk := Vector.replicate 32 0
  events := []
  responses := []
  freshCount := 0

end Sys2Proof.Machine
end

