-- ==== Sys2Proof/Machine/Ops.lean ====
section
/-! DEFINITION. The shared operations on the state: answering a command (R55, R153), taking a failure (R153, R154, R162), the Reset event
(R180), and taking the next event (R44). -/

namespace Sys2Proof.Machine

/-- The six failures (R56, R150). -/
inductive Failure where
  | keyLengthError
  | blockLengthError
  | alignmentError
  | paddingError
  | noKeyError
  | illegalCommand
  deriving DecidableEq, Repr

/-- What a command answers: `OK` with its result bytes, or a failure, which carries nothing else (R151, R153). -/
inductive Response where
  | ok (rdata : List Byte)
  | fail (e : Failure)
  deriving DecidableEq, Repr

/-- What a meaning and a step answer. -/
abbrev Outcome := Host.Outcome State Fault Refusal

/-- The status code of a failure (R56, R151). -/
def Failure.code : Failure → Byte
  | .keyLengthError => 0x01
  | .blockLengthError => 0x02
  | .alignmentError => 0x03
  | .paddingError => 0x04
  | .noKeyError => 0x05
  | .illegalCommand => 0x06

/-- The `STATUS` byte (R55, R56). -/
def Response.status : Response → Byte
  | .ok _ => 0x00
  | .fail e => e.code

/-- `RDATA`; a failure has none (R55, R153). -/
def Response.rdata : Response → List Byte
  | .ok rdata => rdata
  | .fail _ => []

/-- The response frame, format R (R55, R60): `STATUS || RLEN || RDATA`, `RLEN` big-endian. DESIGN CHOICE, safe (log 12): of a result longer
than 2^32 − 1 bytes, which no frame brings about (R57), `RLEN` is the length modulo 2^32. -/
def Response.encode (r : Response) : List Byte :=
  r.status :: unbe32 (BitVec.ofNat 32 r.rdata.length) ++ r.rdata

/-- The core sends one response frame (R55); nothing else changes. -/
def State.respond (s : State) (r : Response) : State :=
  { s with responses := s.responses ++ [r.encode] }

/-- `return OK(b)` (R6): the command ends with status `OK` and result `b`. -/
def answerOk (rdata : List Byte) (s : State) : Outcome := .next (s.respond (.ok rdata))

/-- `raise E` (R6), which is taking a failure, whole: the command ends, the response carries the code and no bytes, no state is
written (R153, R154, R162). There is nothing to save and nothing to return from (R163). -/
def raise (e : Failure) (s : State) : Outcome := .next (s.respond (.fail e))

/-- The unspecified contents of `RK` after a Reset event (R180): 32 free words (log 5). -/
def freshKeys (n : Nat) : RoundKeys :=
  ⟨⟨(List.range 32).map fun i => Config.freeWord (n + i)⟩, by simp⟩

/-- The Reset event (R180): `KEY_VALID <- 0`, `RK` unspecified, no response. What was sent stays sent, and what the host will deliver
next it still delivers (R182; log 1). -/
def State.resetEvent (s : State) : State :=
  { s with keyValid := false, rk := freshKeys s.freshCount, freshCount := s.freshCount + 32 }

end Sys2Proof.Machine
end

