-- ==== Sys2Proof/Machine/Flags.lean ====
section
/-! DEFINITION. `KEY_VALID`, the only flag (R14), and the cipher context it guards: the ONE read of `RK` and the ONE write of it by a
command (R13, R14). There are no condition codes (R15). -/

namespace Sys2Proof.Machine

/-- The loaded context: the round keys while `KEY_VALID = 1`, and none while it is 0, so that `RK` is not read then (R14, R159). -/
def State.context (s : State) : Option RoundKeys := if s.keyValid then some s.rk else none

/-- What a successful `CONSTRUCT` writes, as one update: all 32 registers and the flag (R13, R93). -/
def State.loadContext (s : State) (rk : RoundKeys) : State := { s with keyValid := true, rk := rk }

end Sys2Proof.Machine
end

