-- ==== Sys2Proof/Machine/BlockEngine.lean ====
section
/-! DEFINITION. The block cipher engine (R100 to R103) and the commands `ENCRYPT_BLOCK` (R104) and `DECRYPT_BLOCK` (R105). -/

namespace Sys2Proof.Machine

/-- The rounds (R101) on the sliding window (R82): one round per round key, in order. -/
def blockRounds : Window → List Word → Window
  | w, [] => w
  | w, k :: ks => blockRounds (w.slide (roundF w k)) ks

/-- The output (R102): the last four words packed in reverse order. -/
def packReversed (w : Window) : Block := pack4 w.a3 w.a2 w.a1 w.a0

/-- `Crypt(block, k)` (R103). -/
def crypt (block : Block) (k : RoundKeys) : Block := packReversed (blockRounds (unpack4 block) k.toList)

/-- 0x02 `ENCRYPT_BLOCK` (R104). -/
def execEncryptBlock (data : List Byte) (s : State) : Outcome :=
  match s.context with
  | none => raise .noKeyError s
  | some rk =>
    match toBlock data with
    | none => raise .blockLengthError s
    | some b => answerOk (crypt b rk).toList s

/-- 0x03 `DECRYPT_BLOCK` (R105): the same transform under the reversed keys. -/
def execDecryptBlock (data : List Byte) (s : State) : Outcome :=
  match s.context with
  | none => raise .noKeyError s
  | some rk =>
    match toBlock data with
    | none => raise .blockLengthError s
    | some b => answerOk (crypt b (reversedKeys rk)).toList s

end Sys2Proof.Machine
end

