-- ==== Sys2Proof/Machine/KeySchedule.lean ====
section
/-! DEFINITION. The key-schedule engine (R90 to R92) and the command `CONSTRUCT` (R93). -/

namespace Sys2Proof.Machine

/-- The seed `K[i] = MK[i] ^ FK[i]` (R90). -/
def keySeed (key : Block) : Window :=
  let mk := unpack4 key
  ⟨mk.a0 ^^^ fk.a0, mk.a1 ^^^ fk.a1, mk.a2 ^^^ fk.a2, mk.a3 ^^^ fk.a3⟩

/-- The schedule steps (R91) on the sliding window (R82): one new word, which is one round key, per round constant. -/
def scheduleWords : Window → List Word → List Word
  | _, [] => []
  | w, c :: cs => roundFp w c :: scheduleWords (w.slide (roundFp w c)) cs

theorem scheduleWords_length (w : Window) (cs : List Word) : (scheduleWords w cs).length = cs.length := by
  induction cs generalizing w with
  | nil => rfl
  | cons c cs ih => simp [scheduleWords, ih]

/-- `KeyExpand(key)` (R92). -/
def keyExpand (key : Block) : RoundKeys :=
  ⟨⟨scheduleWords (keySeed key) ck.toList⟩, by simp [scheduleWords_length]⟩

/-- 0x01 `CONSTRUCT` (R93). -/
def execConstruct (key : List Byte) (s : State) : Outcome :=
  match toBlock key with
  | none => raise .keyLengthError s
  | some k => answerOk [] (s.loadContext (keyExpand k))

end Sys2Proof.Machine
end

