-- ==== Sys2Proof/Machine/Padding.lean ====
section
/-! DEFINITION. The PKCS#7 padding encoder and decoder (R115, R117) and the commands `PAD` (R118) and `UNPAD` (R119). -/

namespace Sys2Proof.Machine

/-- `N = bs − (len(data) mod bs)`, how many bytes the encoder adds to data of length `len` (R115). -/
def padCount (bs : BlockSize) (len : Nat) : Nat := bs.size - len % bs.size

/-- `Pad(data, bs)` (R115): `N` bytes of value `N` after the data. -/
def pad (bs : BlockSize) (data : List Byte) : List Byte :=
  data ++ List.replicate (padCount bs data.length) (BitVec.ofNat 8 (padCount bs data.length))

/-- The three failures of the padding decoder, in the source's words (R117). -/
inductive UnpadFailure where
  | misaligned
  | invalidPaddingValue
  | corruptedPadding
  deriving DecidableEq, Repr

/-- `Unpad(data, bs)` (R117): the three checks in order, then the data without its last `N` bytes. -/
def unpad (bs : BlockSize) (data : List Byte) : Except UnpadFailure (List Byte) :=
  match data.getLast? with
  | none => .error .misaligned
  | some last =>
    if data.length % bs.size ≠ 0 then .error .misaligned
    else if last.toNat < 1 ∨ bs.size < last.toNat then .error .invalidPaddingValue
    else if (data.drop (data.length - last.toNat)).all (fun b => b == last) then
      .ok (data.take (data.length - last.toNat))
    else .error .corruptedPadding

/-- Which failure of a command a failure of the decoder is (R119, R157, R158, R167). -/
def UnpadFailure.failure : UnpadFailure → Failure
  | .misaligned => .alignmentError
  | .invalidPaddingValue => .paddingError
  | .corruptedPadding => .paddingError

/-- `UnpadStatus` (R167): the end of a command whose result is the decoder's. -/
def answerUnpad (r : Except UnpadFailure (List Byte)) (s : State) : Outcome :=
  match r with
  | .error e => raise e.failure s
  | .ok b => answerOk b s

/-- 0x08 `PAD` (R118). -/
def execPad (data : List Byte) (s : State) : Outcome := answerOk (pad Config.padBs data) s

/-- 0x09 `UNPAD` (R119). -/
def execUnpad (data : List Byte) (s : State) : Outcome := answerUnpad (unpad Config.padBs data) s

end Sys2Proof.Machine
end

