-- ==== Sys2Proof/Machine/Ecb.lean ====
section
/-! DEFINITION. ECB apply and the composite functions (R130, R132, R133), and the commands `ENCRYPT_ECB` (R134), `DECRYPT_ECB` (R135),
`ENCRYPT_ECB_CTX` (R136) and `DECRYPT_ECB_CTX` (R137). -/

namespace Sys2Proof.Machine

/-- `EcbApply(B, k)` (R130): every block on its own, the results in block order. -/
def ecbApply (b : List Byte) (k : RoundKeys) : List Byte :=
  joinBlocks ((splitBlocks b).map fun blk => crypt blk k)

/-- `EcbEncrypt(buffer, rk)` (R132). -/
def ecbEncrypt (buffer : List Byte) (rk : RoundKeys) : List Byte := ecbApply (pad Config.padBs buffer) rk

/-- `EcbDecrypt(buffer, rk)` (R133), `rk` in encryption order. -/
def ecbDecrypt (buffer : List Byte) (rk : RoundKeys) : Except UnpadFailure (List Byte) :=
  unpad Config.padBs (ecbApply buffer (reversedKeys rk))

/-- 0x04 `ENCRYPT_ECB` (R134): the round keys are transient, the context is neither read nor written (R131). -/
def execEncryptEcb (key data : List Byte) (s : State) : Outcome :=
  match toBlock key with
  | none => raise .keyLengthError s
  | some k => answerOk (ecbEncrypt data (keyExpand k)) s

/-- 0x05 `DECRYPT_ECB` (R135): the alignment is tested before the key is looked at. -/
def execDecryptEcb (key data : List Byte) (s : State) : Outcome :=
  if data.length % 16 ≠ 0 then raise .alignmentError s
  else
    match toBlock key with
    | none => raise .keyLengthError s
    | some k => answerUnpad (ecbDecrypt data (keyExpand k)) s

/-- 0x06 `ENCRYPT_ECB_CTX` (R136). -/
def execEncryptEcbCtx (data : List Byte) (s : State) : Outcome :=
  match s.context with
  | none => raise .noKeyError s
  | some rk => answerOk (ecbEncrypt data rk) s

/-- 0x07 `DECRYPT_ECB_CTX` (R137). -/
def execDecryptEcbCtx (data : List Byte) (s : State) : Outcome :=
  match s.context with
  | none => raise .noKeyError s
  | some rk =>
    if data.length % 16 ≠ 0 then raise .alignmentError s
    else answerUnpad (ecbDecrypt data rk) s

end Sys2Proof.Machine
end

