-- ==== Sys2Proof/Machine/Dispatch.lean ====
section
/-! DEFINITION. The dispatch: one arm per command, each a direct call of its meaning (R167). -/

namespace Sys2Proof.Machine
open Sys2Proof

def exec (i : Instr) (s : State) : Host.Outcome State Fault Refusal :=
  match i with
  | .construct key => Sys2Proof.Machine.execConstruct key s
  | .encryptBlock data => Sys2Proof.Machine.execEncryptBlock data s
  | .decryptBlock data => Sys2Proof.Machine.execDecryptBlock data s
  | .encryptEcb key data => Sys2Proof.Machine.execEncryptEcb key data s
  | .decryptEcb key data => Sys2Proof.Machine.execDecryptEcb key data s
  | .encryptEcbCtx data => Sys2Proof.Machine.execEncryptEcbCtx data s
  | .decryptEcbCtx data => Sys2Proof.Machine.execDecryptEcbCtx data s
  | .pad data => Sys2Proof.Machine.execPad data s
  | .unpad data => Sys2Proof.Machine.execUnpad data s

end Sys2Proof.Machine
end

