-- ==== Sys2Proof/Machine/Step.lean ====
section
/-! DEFINITION. One step of the machine: the next event, whole (R44, R167, R182). It only calls what Decode and the files of Machine
define. -/

namespace Sys2Proof.Machine

/-- One step (R44, R167, R182): the next event is taken from the host and carried out to its end. A frame that decodes runs its command;
an illegal frame is answered `IllegalCommand` (R58); a Reset event resets (R180); with no event the core waits, unchanged (R180; log 3). -/
def step (s : State) : Host.Outcome State Fault Refusal :=
  match s.events with
  | [] => .next s
  | .reset :: rest => .next (State.resetEvent { s with events := rest })
  | .frame f :: rest =>
    match decode f with
    | .error _ => raise .illegalCommand { s with events := rest }
    | .ok i => exec i { s with events := rest }

/-- `s` with the command of an opcode-table word as the host's next frame (log 7): the very next step decodes and runs it. -/
def State.withFetchWord (s : State) (nbits w : Nat) : State :=
  { s with events := .frame (tableFrame nbits w) :: s.events }

end Sys2Proof.Machine
end

