-- ==== Sys2Proof/Safety.lean ====
section
/-! DEFINITION. What counts as a good state and a good answer, in the terms the claims use. -/

namespace Sys2Proof.Machine

/-- A response frame as R55 and R56 allow it: one of the seven status codes, an `RLEN` that is the number of result bytes that follow, and
no result bytes beside a failure (R153). -/
def WellFormedResponse (f : List Byte) : Prop :=
  ∃ status l0 l1 l2 l3 rdata, f = status :: l0 :: l1 :: l2 :: l3 :: rdata ∧
    status.toNat ≤ 6 ∧ (be32 l0 l1 l2 l3).toNat = rdata.length ∧ (status ≠ 0 → rdata = [])

/-- Every response frame sent so far is well formed. -/
def State.ResponsesWellFormed (s : State) : Prop := ∀ f ∈ s.responses, WellFormedResponse f

/-- A loaded context is the key schedule of some 16-byte key (R11, R13, R181): while `KEY_VALID = 1`, `RK` is `KeyExpand` of it. -/
def State.ContextFromKey (s : State) : Prop := s.keyValid = true → ∃ key : Block, s.rk = keyExpand key

/-- `data` is `plain` followed by valid padding: `n` bytes of value `n`, `1 ≤ n ≤ 16` (R117, R120). -/
def PaddedAs (data plain : List Byte) : Prop :=
  ∃ n, 1 ≤ n ∧ n ≤ 16 ∧ data = plain ++ List.replicate n (BitVec.ofNat 8 n)

/-- How many command frames a list of events holds: how many responses the core owes for it (R55, R186). -/
def countFrames : List Event → Nat
  | [] => 0
  | .reset :: es => countFrames es
  | .frame _ :: es => countFrames es + 1

end Sys2Proof.Machine
end

