-- ==== Sys2Proof/Safety/Reference.lean ====
section
/-! DEFINITION. The spec's pseudocode in its own indexed form, for the claims that the machine agrees with it: the byte spaces read by index
(R6), the 36 words of each engine (R91, R101), ECB apply (R130), the padding decoder (R117), `Decode` (R59) and `Step` (R167). It shares
with the machine the substitution, the two diffusions and the tables only. Nothing of the machine uses it. -/

namespace Sys2Proof.Reference
open Sys2Proof.Machine (Failure tau diffL diffLp ck fk)

/-- `b[i]`; the rules never read outside a space (R6), where this reads 0. -/
def byteAt (b : List Byte) (i : Nat) : Byte := b.getD i 0

/-- `MemRead(S, a, n)` (R6). -/
def memRead (b : List Byte) (a n : Nat) : List Byte := (b.drop a).take n

/-- `BE32(b)` (R31). -/
def be32 (b : List Byte) : Word :=
  ((byteAt b 0).setWidth 32 <<< 24) ||| ((byteAt b 1).setWidth 32 <<< 16) ||| ((byteAt b 2).setWidth 32 <<< 8) |||
    (byteAt b 3).setWidth 32

/-- `UNBE32(w)` (R32). -/
def unbe32 (w : Word) : List Byte :=
  [(w >>> 24).setWidth 8, (w >>> 16).setWidth 8, (w >>> 8).setWidth 8, w.setWidth 8]

/-- Word `i` of `Unpack4(b)` (R33). -/
def unpackWord (b : List Byte) (i : Nat) : Word := be32 (memRead b (4 * i) 4)

/-- `K[n]` of the key schedule (R90, R91). -/
def scheduleWord (key : List Byte) : Nat → Word
  | 0 => unpackWord key 0 ^^^ fk.a0
  | 1 => unpackWord key 1 ^^^ fk.a1
  | 2 => unpackWord key 2 ^^^ fk.a2
  | 3 => unpackWord key 3 ^^^ fk.a3
  | n + 4 => scheduleWord key n ^^^
      diffLp (tau (scheduleWord key (n + 1) ^^^ scheduleWord key (n + 2) ^^^ scheduleWord key (n + 3) ^^^ ck.toList.getD n 0))

/-- `KeyExpand(key)`, word `i` (R92). -/
def keyExpand (key : List Byte) (i : Nat) : Word := scheduleWord key (i + 4)

/-- `X[n]` of the block transform (R100, R101). -/
def roundWord (block : List Byte) (k : Nat → Word) : Nat → Word
  | 0 => unpackWord block 0
  | 1 => unpackWord block 1
  | 2 => unpackWord block 2
  | 3 => unpackWord block 3
  | n + 4 => roundWord block k n ^^^
      diffL (tau (roundWord block k (n + 1) ^^^ roundWord block k (n + 2) ^^^ roundWord block k (n + 3) ^^^ k n))

/-- `Crypt(block, k)` (R102, R103). -/
def crypt (block : List Byte) (k : Nat → Word) : List Byte :=
  unbe32 (roundWord block k 35) ++ unbe32 (roundWord block k 34) ++ unbe32 (roundWord block k 33) ++
    unbe32 (roundWord block k 32)

/-- `reverse(rk)` (R106, R133). -/
def reverse (rk : Nat → Word) (i : Nat) : Word := rk (31 - i)

/-- `EcbApply(B, k)` (R130). -/
def ecbApply (b : List Byte) (k : Nat → Word) : List Byte :=
  (List.range (b.length / 16)).flatMap fun j => crypt (memRead b (16 * j) 16) k

/-- `Pad(data, 16)` (R115). -/
def pad16 (data : List Byte) : List Byte :=
  data ++ List.replicate (16 - data.length % 16) (BitVec.ofNat 8 (16 - data.length % 16))

/-- The answer of a command: a failure, or the result bytes. -/
abbrev Answer := Except Failure (List Byte)

/-- `UnpadStatus(Unpad(data, 16))` (R117, R167). -/
def unpadStatus16 (data : List Byte) : Answer :=
  let n := data.length
  if n = 0 ∨ n % 16 ≠ 0 then .error .alignmentError
  else
    let last := (byteAt data (n - 1)).toNat
    if last < 1 ∨ last > 16 then .error .paddingError
    else if ∃ i < n, n - last ≤ i ∧ (byteAt data i).toNat ≠ last then .error .paddingError
    else .ok (memRead data 0 (n - last))

/-- `EcbEncrypt(buffer, rk)` (R132). -/
def ecbEncrypt (buffer : List Byte) (rk : Nat → Word) : List Byte := ecbApply (pad16 buffer) rk

/-- `UnpadStatus(EcbDecrypt(buffer, rk))` (R133, R167). -/
def ecbDecryptStatus (buffer : List Byte) (rk : Nat → Word) : Answer := unpadStatus16 (ecbApply buffer (reverse rk))

/-- `Decode(f)` (R59), line by line. -/
def decode (maxBuf : Nat) (f : List Byte) : Option Instr :=
  if f.length < 6 then none
  else
    let op := (byteAt f 0).toNat
    let klen := (byteAt f 1).toNat
    let dlen := (be32 (memRead f 2 4)).toNat
    if op < 0x01 ∨ op > 0x09 then none
    else if dlen > maxBuf then none
    else if f.length ≠ 6 + klen + dlen then none
    else
      let key := memRead f 6 klen
      let data := memRead f (6 + klen) dlen
      if op = 0x01 ∧ dlen ≠ 0 then none
      else if op ∈ [0x02, 0x03, 0x06, 0x07, 0x08, 0x09] ∧ klen ≠ 0 then none
      else if op = 0x01 then some (.construct key)
      else if op = 0x02 then some (.encryptBlock data)
      else if op = 0x03 then some (.decryptBlock data)
      else if op = 0x04 then some (.encryptEcb key data)
      else if op = 0x05 then some (.decryptEcb key data)
      else if op = 0x06 then some (.encryptEcbCtx data)
      else if op = 0x07 then some (.decryptEcbCtx data)
      else if op = 0x08 then some (.pad data)
      else some (.unpad data)

/-- The spec's state as `Step` takes it (R167): `KEY_VALID` and `RK` by index. -/
structure Context where
  keyValid : Bool
  rk : Nat → Word

/-- `Step` on a decoded command (R167): the context after it and its answer. -/
def run (c : Context) : Instr → Context × Answer
  | .construct k =>
    if k.length ≠ 16 then (c, .error .keyLengthError) else (⟨true, keyExpand k⟩, .ok [])
  | .encryptBlock d =>
    (c, if c.keyValid = false then .error .noKeyError
      else if d.length ≠ 16 then .error .blockLengthError else .ok (crypt d c.rk))
  | .decryptBlock d =>
    (c, if c.keyValid = false then .error .noKeyError
      else if d.length ≠ 16 then .error .blockLengthError else .ok (crypt d (reverse c.rk)))
  | .encryptEcb k d =>
    (c, if k.length ≠ 16 then .error .keyLengthError else .ok (ecbEncrypt d (keyExpand k)))
  | .decryptEcb k d =>
    (c, if d.length % 16 ≠ 0 then .error .alignmentError
      else if k.length ≠ 16 then .error .keyLengthError else ecbDecryptStatus d (keyExpand k))
  | .encryptEcbCtx d =>
    (c, if c.keyValid = false then .error .noKeyError else .ok (ecbEncrypt d c.rk))
  | .decryptEcbCtx d =>
    (c, if c.keyValid = false then .error .noKeyError
      else if d.length % 16 ≠ 0 then .error .alignmentError else ecbDecryptStatus d c.rk)
  | .pad d => (c, .ok (pad16 d))
  | .unpad d => (c, unpadStatus16 d)

/-- `Step(KEY_VALID, RK, f)` (R167). -/
def step (maxBuf : Nat) (c : Context) (f : List Byte) : Context × Answer :=
  match decode maxBuf f with
  | none => (c, .error .illegalCommand)
  | some i => run c i

/-- The status numbers, as the table of R56 lists them. -/
def code : Failure → Byte
  | .keyLengthError => 1
  | .blockLengthError => 2
  | .alignmentError => 3
  | .paddingError => 4
  | .noKeyError => 5
  | .illegalCommand => 6

/-- `Fail(E)` is `code(E) 00000000`; `OK(b)` is `00 || UNBE32(len(b)) || b` (R167). -/
def responseFrame : Answer → List Byte
  | .error e => [code e, 0, 0, 0, 0]
  | .ok b => 0 :: unbe32 (BitVec.ofNat 32 b.length) ++ b

end Sys2Proof.Reference
end

