-- ==== Sys2Proof/Certificates/Slice0/Obligations.lean ====
section
/-! DEFINITION. The statements about the SM4 cipher core, from the spec's numbered rules. Each is about every state and all operands, reachable or
not, unless its docstring says otherwise. -/

open Sys2Proof Sys2Proof.Machine

/-! ## Frames and responses -/

/-- R60. Encoding is the inverse on legal commands, whatever the parameter `MAX_BUF_LEN` is in its range: decoding the encoding of a command whose
key and data fit gives it back. The layouts of both frames, the nine opcode bytes, and the rule's worked example. -/
def Obligations.DecodeEncodeRoundTrip : Prop :=
  (∀ (maxBuf : Nat) (i : Instr), 16 ≤ maxBuf → maxBuf ≤ 4294967279 → i.key.length ≤ 255 → i.data.length ≤ maxBuf →
    decodeWith maxBuf (encode i) = .ok i) ∧
  (∀ i : Instr, encode i =
    i.opcode :: BitVec.ofNat 8 i.key.length :: unbe32 (BitVec.ofNat 32 i.data.length) ++ i.key ++ i.data) ∧
  (∀ key data : List Byte, (Instr.construct key).opcode = 0x01 ∧ (Instr.encryptBlock data).opcode = 0x02 ∧
    (Instr.decryptBlock data).opcode = 0x03 ∧ (Instr.encryptEcb key data).opcode = 0x04 ∧
    (Instr.decryptEcb key data).opcode = 0x05 ∧ (Instr.encryptEcbCtx data).opcode = 0x06 ∧
    (Instr.decryptEcbCtx data).opcode = 0x07 ∧ (Instr.pad data).opcode = 0x08 ∧ (Instr.unpad data).opcode = 0x09 ∧
    encode (.construct key) = [0x01, BitVec.ofNat 8 key.length, 0, 0, 0, 0] ++ key ∧
    encode (.encryptBlock data) = [0x02, 0] ++ unbe32 (BitVec.ofNat 32 data.length) ++ data) ∧
  (∀ r : Response, r.encode = r.status :: unbe32 (BitVec.ofNat 32 r.rdata.length) ++ r.rdata) ∧
  encode (.construct [0x01, 0x23, 0x45, 0x67, 0x89, 0xAB, 0xCD, 0xEF, 0xFE, 0xDC, 0xBA, 0x98, 0x76, 0x54, 0x32, 0x10]) =
    [0x01, 0x10, 0, 0, 0, 0,
     0x01, 0x23, 0x45, 0x67, 0x89, 0xAB, 0xCD, 0xEF, 0xFE, 0xDC, 0xBA, 0x98, 0x76, 0x54, 0x32, 0x10] ∧
  (Response.ok []).encode = [0, 0, 0, 0, 0]

/-- The other direction: a frame that decodes is the encoding of the command it decodes to, so no bit of an accepted frame is dropped and every
accepted frame means exactly one thing. -/
def Obligations.EncodeDecodeRoundTrip : Prop :=
  ∀ (maxBuf : Nat) (f : List Byte) (i : Instr), decodeWith maxBuf f = .ok i →
    encode i = f ∧ i.wellFormedFor maxBuf = true

/-- R58, R161. A frame is illegal exactly in the cases (a) to (e); an illegal frame is answered `IllegalCommand` with no result bytes, from the frame
alone, and writes no state. -/
def Obligations.IllegalFramesExactly : Prop :=
  (∀ (maxBuf : Nat) (f : List Byte),
    let op := (Reference.byteAt f 0).toNat
    let klen := (Reference.byteAt f 1).toNat
    let dlen := (Reference.be32 (Reference.memRead f 2 4)).toNat
    (∃ e, decodeWith maxBuf f = .error e) ↔
      f.length < 6 ∨ (op < 0x01 ∨ 0x09 < op) ∨ maxBuf < dlen ∨ f.length ≠ 6 + klen + dlen ∨
        (op = 0x01 ∧ dlen ≠ 0) ∨ (op ∈ [0x02, 0x03, 0x06, 0x07, 0x08, 0x09] ∧ klen ≠ 0)) ∧
  (∀ (s : State) (f : List Byte) (rest : List Event) (e : Illegal), s.events = .frame f :: rest → decode f = .error e →
    step s = .next { s with events := rest, responses := s.responses ++ [[0x06, 0, 0, 0, 0]] })

/-- R59. The decoder agrees with the spec's `Decode`, transcribed line by line, on every input. -/
def Obligations.DecodeMatchesReference : Prop :=
  ∀ (maxBuf : Nat) (f : List Byte),
    (match decodeWith maxBuf f with | .ok i => some i | .error _ => none) = Reference.decode maxBuf f

/-- One frame of each command, written out from R50 and R53, decodes to the command it stands for. -/
def Obligations.SampleFramesDecode : Prop :=
  decode [0x01, 0x02, 0, 0, 0, 0, 0xA1, 0xA2] = .ok (.construct [0xA1, 0xA2]) ∧
  decode [0x02, 0, 0, 0, 0, 3, 0xB1, 0xB2, 0xB3] = .ok (.encryptBlock [0xB1, 0xB2, 0xB3]) ∧
  decode [0x03, 0, 0, 0, 0, 1, 0xC1] = .ok (.decryptBlock [0xC1]) ∧
  decode [0x04, 0x01, 0, 0, 0, 2, 0xA1, 0xD1, 0xD2] = .ok (.encryptEcb [0xA1] [0xD1, 0xD2]) ∧
  decode [0x05, 0x02, 0, 0, 0, 1, 0xA1, 0xA2, 0xD1] = .ok (.decryptEcb [0xA1, 0xA2] [0xD1]) ∧
  decode [0x06, 0, 0, 0, 0, 1, 0xE1] = .ok (.encryptEcbCtx [0xE1]) ∧
  decode [0x07, 0, 0, 0, 0, 1, 0xE2] = .ok (.decryptEcbCtx [0xE2]) ∧
  decode [0x08, 0, 0, 0, 0, 0] = .ok (.pad []) ∧
  decode [0x09, 0, 0, 0, 0, 2, 0xF1, 0xF2] = .ok (.unpad [0xF1, 0xF2])

/-- R56, and the response frame as a code: the seven status bytes; the `RLEN` bytes count the result bytes; a failure's frame is five bytes;
two responses with the same frame are the same response. -/
def Obligations.ResponseFrameFormat : Prop :=
  ((∀ b, (Response.ok b).status = 0) ∧ Failure.keyLengthError.code = 1 ∧ Failure.blockLengthError.code = 2 ∧
    Failure.alignmentError.code = 3 ∧ Failure.paddingError.code = 4 ∧ Failure.noKeyError.code = 5 ∧
    Failure.illegalCommand.code = 6) ∧
  (∀ r : Response, r.rdata.length < 4294967296 → ∃ l0 l1 l2 l3,
    r.encode = r.status :: l0 :: l1 :: l2 :: l3 :: r.rdata ∧ (be32 l0 l1 l2 l3).toNat = r.rdata.length) ∧
  (∀ e : Failure, (Response.fail e).encode = [e.code, 0, 0, 0, 0]) ∧
  (∀ r r' : Response, r.encode = r'.encode → r = r')

/-- R57. A frame whose `DLEN` exceeds `MAX_BUF_LEN` is illegal whatever its opcode; for every legal frame the result is at most `DLEN + 16`
bytes, which fits the 32-bit `RLEN`; and `PAD` and an ECB encryption of whole blocks reach that length. -/
def Obligations.ResultsFitRlen : Prop :=
  (∀ (maxBuf : Nat) (f : List Byte), 6 ≤ f.length → maxBuf < (Reference.be32 (Reference.memRead f 2 4)).toNat →
    ∃ e, decodeWith maxBuf f = .error e) ∧
  (∀ (maxBuf : Nat) (f : List Byte) (i : Instr) (s : State), maxBuf ≤ 4294967279 → decodeWith maxBuf f = .ok i →
    ∃ (t : State) (r : Response), exec i s = .next t ∧ t.responses = s.responses ++ [r.encode] ∧
      r.rdata.length ≤ i.data.length + 16 ∧ r.rdata.length ≤ 4294967295) ∧
  (∀ (s : State) (k : Block) (d : List Byte), s.keyValid = true → d.length % 16 = 0 →
    ∀ i ∈ [Instr.pad d, .encryptEcb k.toList d, .encryptEcbCtx d],
      ∃ (t : State) (r : Response), exec i s = .next t ∧ t.responses = s.responses ++ [r.encode] ∧
        r.rdata.length = d.length + 16)

/-! ## Steps and runs -/

/-- When the host's next event is a frame that decodes, step is exec of the decoded command on the state with that event taken. -/
def Obligations.StepRunsDecodedCommand : Prop :=
  ∀ (s : State) (f : List Byte) (rest : List Event) (i : Instr), s.events = .frame f :: rest → decode f = .ok i →
    step s = exec i { s with events := rest }

/-- R167. A step on a delimited frame is the spec's `Step`, transcribed in its own indexed form: the context after it, word by word, and the response
frame, byte by byte. -/
def Obligations.StepMatchesReference : Prop :=
  ∀ (s : State) (f : List Byte) (rest : List Event), s.events = .frame f :: rest →
    ∃ t : State, step s = .next t ∧
      let after := Reference.step Config.maxBufLen ⟨s.keyValid, fun i => s.rk.toList.getD i 0⟩ f
      t.keyValid = after.1.keyValid ∧ (∀ (i : Nat) (_ : i < 32), t.rk[i] = after.1.rk i) ∧
      t.responses = s.responses ++ [Reference.responseFrame after.2] ∧ t.events = rest ∧ t.freshCount = s.freshCount

/-- R191. Every step answers a next state, and every command ends with its one response sent, in every state. -/
def Obligations.EveryCommandEnds : Prop :=
  (∀ s : State, ∃ t, step s = .next t) ∧
  (∀ (i : Instr) (s : State), ∃ t r, exec i s = .next t ∧ t.responses = s.responses ++ [r])

/-- As many steps as events carry out all of them, in the order of the list: one response per frame, none for a reset, and what was sent before
stays as it was; a run over `es ++ es'` is the run over `es` followed by the run over `es'`; and the response that follows those to the frames of
`es` is the one that the step on the frame after `es` sends, in the state that the run over `es` left. -/
def Obligations.RunAnswersEveryFrame : Prop :=
  (∀ s : State, ∃ t : State, core.run s.events.length s = .next t ∧ t.events = [] ∧
    t.responses.length = s.responses.length + countFrames s.events ∧ s.responses <+: t.responses) ∧
  (∀ (s : State) (es es' : List Event), s.events = es ++ es' →
    ∃ u : State, core.run es.length { s with events := es } = .next { u with events := [] } ∧
      core.run es.length s = .next u ∧ u.events = es' ∧ core.run s.events.length s = core.run es'.length u) ∧
  (∀ (s : State) (es : List Event) (f : List Byte) (rest : List Event), s.events = es ++ .frame f :: rest →
    ∃ (u v t : State) (r : List Byte), core.run es.length s = .next u ∧ u.events = .frame f :: rest ∧
      u.responses.length = s.responses.length + countFrames es ∧ step u = .next v ∧ v.responses = u.responses ++ [r] ∧
      core.run s.events.length s = .next t ∧ t.responses[s.responses.length + countFrames es]? = some r)

/-- The frame of every command: the events still to come and the count of free words are unchanged, one response is added, and `KEY_VALID` and every
`RK[i]` are unchanged but for a `CONSTRUCT` with a 16-byte key, which says what it writes in ConstructLoadsContext. -/
def Obligations.CommandFrame : Prop :=
  ∀ (i : Instr) (s t : State), exec i s = .next t →
    t.events = s.events ∧ t.freshCount = s.freshCount ∧ (∃ r, t.responses = s.responses ++ [r]) ∧
    ((∀ key, i = .construct key → key.length ≠ 16) → t.keyValid = s.keyValid ∧ t.rk = s.rk)

/-- R153, R154. Every command sends exactly one response; where it is a failure, it is the five bytes `code 00000000` and the state is as it was;
and `KEY_VALID` never goes from 1 to 0 by a command. -/
def Obligations.FailureLeavesState : Prop :=
  ∀ (i : Instr) (s : State), ∃ (t : State) (r : List Byte), exec i s = .next t ∧ t.responses = s.responses ++ [r] ∧
    (r.head? ≠ some 0 → (∃ e : Failure, r = [e.code, 0, 0, 0, 0]) ∧ t = { s with responses := s.responses ++ [r] }) ∧
    (s.keyValid = true → t.keyValid = true)

/-- R42. Every command but `CONSTRUCT` answers as a function of the context and its operands and writes nothing else, so that sent again it answers the
same; and `CONSTRUCT` sent twice leaves the context it left the first time. -/
def Obligations.CommandsArePure : Prop :=
  (∀ i : Instr, (∀ key, i ≠ .construct key) → ∃ answer : Option RoundKeys → List Byte, ∀ s : State,
    exec i s = .next { s with responses := s.responses ++ [answer (if s.keyValid then some s.rk else none)] }) ∧
  (∀ (key : List Byte) (s t : State), exec (.construct key) s = .next t →
    ∃ t', exec (.construct key) t = .next t' ∧ t'.keyValid = t.keyValid ∧ t'.rk = t.rk)

/-! ## The context -/

/-- R14. `KEY_VALID` is 0 after reset; a `CONSTRUCT` that succeeds makes it 1; no command makes it 0; while it is 0 the four commands that need the
context answer `NoKeyError`, whatever `RK` holds. -/
def Obligations.KeyValidFlag : Prop :=
  State.reset.keyValid = false ∧
  (∀ (s : State) (key : List Byte), key.length = 16 → ∃ t, exec (.construct key) s = .next t ∧ t.keyValid = true) ∧
  (∀ (i : Instr) (s t : State), exec i s = .next t → s.keyValid = true → t.keyValid = true) ∧
  (∀ (s : State) (d : List Byte), s.keyValid = false →
    ∀ i ∈ [Instr.encryptBlock d, .decryptBlock d, .encryptEcbCtx d, .decryptEcbCtx d],
      exec i s = .next { s with responses := s.responses ++ [[0x05, 0, 0, 0, 0]] })

/-- R159. `NoKeyError` is answered exactly by the four commands that use the context while `KEY_VALID = 0`, whatever their operand: it is their first
check, and no other command ever raises it. -/
def Obligations.NoKeyErrorExactly : Prop :=
  ∀ (s t : State) (i : Instr), exec i s = .next t →
    (t.responses = s.responses ++ [[0x05, 0, 0, 0, 0]] ↔
      s.keyValid = false ∧ ∃ d, i ∈ [Instr.encryptBlock d, .decryptBlock d, .encryptEcbCtx d, .decryptEcbCtx d])

/-- R21. A step changes the context only if it takes a Reset event or a frame that decodes to a `CONSTRUCT` with a 16-byte key. -/
def Obligations.ContextChangesOnlyByConstructOrReset : Prop :=
  ∀ s t : State, step s = .next t →
    (t.keyValid = s.keyValid ∧ t.rk = s.rk) ∨ (∃ rest, s.events = .reset :: rest) ∨
    (∃ f rest key, s.events = .frame f :: rest ∧ decode f = .ok (.construct key) ∧ key.length = 16)

/-- R181. There is no context after power-up, none survives a Reset event, and the only step that brings one about from none takes the frame of a
`CONSTRUCT` with a 16-byte key. -/
def Obligations.ContextComesFromConstructOnly : Prop :=
  State.reset.keyValid = false ∧
  (∀ (s : State) (rest : List Event), s.events = .reset :: rest → ∃ t, step s = .next t ∧ t.keyValid = false) ∧
  (∀ s t : State, s.keyValid = false → step s = .next t → t.keyValid = true →
    ∃ f rest key, s.events = .frame f :: rest ∧ decode f = .ok (.construct key) ∧ key.length = 16)

/-- The Reset event clears `KEY_VALID`, sends no response, and leaves what the host delivers next; with no event the core waits unchanged (the
model's reading, log 3). Nothing is said of `RK`, which is then unspecified (log 5). -/
def Obligations.ResetEventAndIdle : Prop :=
  (∀ (s : State) (rest : List Event), s.events = .reset :: rest → ∃ t : State, step s = .next t ∧ t.keyValid = false ∧
    t.events = rest ∧ t.responses = s.responses) ∧
  (∀ s : State, s.events = [] → step s = .next s)

/-- What `RK` holds while no context is loaded is invisible: two machines that differ in it alone send the same responses in every run, and once a
context is loaded it is the same in both. So no claim rests on the value State.reset gives `RK` (log 4). -/
def Obligations.UnloadedKeysInvisible : Prop :=
  ∀ (n : Nat) (s : State) (rk : RoundKeys), s.keyValid = false →
    ∃ t t' : State, core.run n s = .next t ∧ core.run n { s with rk := rk } = .next t' ∧
      t.responses = t'.responses ∧ t.events = t'.events ∧ t.keyValid = t'.keyValid ∧ (t.keyValid = true → t.rk = t'.rk)

/-- Every step keeps it: a loaded context is the key schedule of some 16-byte key. -/
def Obligations.StepKeepsContextFromKey : Prop :=
  ∀ s t : State, s.ContextFromKey → step s = .next t → t.ContextFromKey

/-- Every step keeps it: every response frame sent is well formed (one of the seven status codes, `RLEN` the number of result bytes, none beside a
failure). -/
def Obligations.StepKeepsResponsesWellFormed : Prop :=
  ∀ s t : State, s.ResponsesWellFormed → step s = .next t → t.ResponsesWellFormed

/-- Both invariants hold at reset. -/
def Obligations.ResetMeetsInvariants : Prop := State.reset.ContextFromKey ∧ State.reset.ResponsesWellFormed

/-- R23. A `CONSTRUCT` with a 16-byte key replaces all 32 round keys with those of the new key, whatever was loaded before. The command sent next,
and every command of every run of any length after it, answers the same whatever that was; and the context stays the new key's for as long as the
run takes neither a Reset event nor a further successful `CONSTRUCT`. The inline-key commands leave the context alone. -/
def Obligations.ConstructReplacesContext : Prop :=
  (∀ (k : Block) (s s' : State), ∃ t t' : State, exec (.construct k.toList) s = .next t ∧
    exec (.construct k.toList) s' = .next t' ∧ t.keyValid = true ∧ t'.keyValid = true ∧ t.rk = keyExpand k ∧
    t'.rk = keyExpand k ∧
    ∀ i : Instr, ∃ u u' r, exec i t = .next u ∧ exec i t' = .next u' ∧ u.responses = t.responses ++ [r] ∧
      u'.responses = t'.responses ++ [r]) ∧
  (∀ (k : Block) (s s' : State) (n : Nat), s.events = s'.events →
    ∃ (t t' u u' : State) (added : List (List Byte)), exec (.construct k.toList) s = .next t ∧
      exec (.construct k.toList) s' = .next t' ∧ core.run n t = .next u ∧ core.run n t' = .next u' ∧
      u.responses = t.responses ++ added ∧ u'.responses = t'.responses ++ added ∧
      ((∀ e ∈ s.events, e ≠ .reset ∧ ∀ f key, e = .frame f → decode f = .ok (.construct key) → key.length ≠ 16) →
        u.keyValid = true ∧ u'.keyValid = true ∧ u.rk = keyExpand k ∧ u'.rk = keyExpand k)) ∧
  (∀ (key data : List Byte) (s : State), ∀ i ∈ [Instr.encryptEcb key data, .decryptEcb key data],
    ∃ t, exec i s = .next t ∧ t.keyValid = s.keyValid ∧ t.rk = s.rk)

/-! ## The nine commands: completion, result, failures in their order, and frame -/

/-- R93 `CONSTRUCT`. With a 16-byte key all 32 registers become `KeyExpand` of it and `KEY_VALID` becomes 1, response `OK` with no bytes; with any other
key `KeyLengthError` and nothing written. -/
def Obligations.ConstructLoadsContext : Prop :=
  (∀ key, (Instr.construct key).opcode = 0x01) ∧
  (∀ (s : State) (k : Block), exec (.construct k.toList) s =
    .next { s with keyValid := true, rk := keyExpand k, responses := s.responses ++ [[0, 0, 0, 0, 0]] }) ∧
  (∀ (s : State) (key : List Byte), key.length ≠ 16 →
    exec (.construct key) s = .next { s with responses := s.responses ++ [[0x01, 0, 0, 0, 0]] })

/-- R104 `ENCRYPT_BLOCK`. Under a context a 16-byte block is answered with its 16-byte encryption; `NoKeyError` is tested first, then
`BlockLengthError`; no state is written. -/
def Obligations.EncryptBlockResult : Prop :=
  (∀ data, (Instr.encryptBlock data).opcode = 0x02) ∧
  (∀ (s : State) (b : Block), s.keyValid = true → exec (.encryptBlock b.toList) s =
    .next { s with responses := s.responses ++ [[0, 0, 0, 0, 16] ++ (crypt b s.rk).toList] }) ∧
  (∀ (s : State) (data : List Byte), s.keyValid = false →
    exec (.encryptBlock data) s = .next { s with responses := s.responses ++ [[0x05, 0, 0, 0, 0]] }) ∧
  (∀ (s : State) (data : List Byte), s.keyValid = true → data.length ≠ 16 →
    exec (.encryptBlock data) s = .next { s with responses := s.responses ++ [[0x02, 0, 0, 0, 0]] })

/-- R105 `DECRYPT_BLOCK`. As `ENCRYPT_BLOCK`, with round `i` using `RK[31 − i]`. -/
def Obligations.DecryptBlockResult : Prop :=
  (∀ data, (Instr.decryptBlock data).opcode = 0x03) ∧
  (∀ (s : State) (b : Block) (rkd : RoundKeys), s.keyValid = true →
    (∀ (i : Nat) (_ : i < 32), rkd[i] = s.rk[31 - i]) → exec (.decryptBlock b.toList) s =
    .next { s with responses := s.responses ++ [[0, 0, 0, 0, 16] ++ (crypt b rkd).toList] }) ∧
  (∀ (s : State) (data : List Byte), s.keyValid = false →
    exec (.decryptBlock data) s = .next { s with responses := s.responses ++ [[0x05, 0, 0, 0, 0]] }) ∧
  (∀ (s : State) (data : List Byte), s.keyValid = true → data.length ≠ 16 →
    exec (.decryptBlock data) s = .next { s with responses := s.responses ++ [[0x02, 0, 0, 0, 0]] })

/-- R134 `ENCRYPT_ECB`. With a 16-byte key every buffer is padded and encrypted under `KeyExpand` of it, `16·(floor(DLEN/16) + 1)` bytes; with any other
key `KeyLengthError`; no state is written, with or without a context. -/
def Obligations.EncryptEcbResult : Prop :=
  (∀ key data, (Instr.encryptEcb key data).opcode = 0x04) ∧
  (∀ (s : State) (k : Block) (data : List Byte), ∃ out : List Byte,
    out = ecbApply (pad Config.padBs data) (keyExpand k) ∧ out.length = 16 * (data.length / 16 + 1) ∧
    exec (.encryptEcb k.toList data) s = .next { s with responses := s.responses ++ [(Response.ok out).encode] }) ∧
  (∀ (s : State) (key data : List Byte), key.length ≠ 16 →
    exec (.encryptEcb key data) s = .next { s with responses := s.responses ++ [[0x01, 0, 0, 0, 0]] })

/-- R135 `DECRYPT_ECB`. The failures in the source's order: alignment, key length, the empty buffer, padding; and where the decrypted bytes are some
`plain` followed by valid padding, the answer is `OK` with `plain`. No state is written, with or without a context. -/
def Obligations.DecryptEcbResult : Prop :=
  (∀ key data, (Instr.decryptEcb key data).opcode = 0x05) ∧
  (∀ (s : State) (key data : List Byte), data.length % 16 ≠ 0 →
    exec (.decryptEcb key data) s = .next { s with responses := s.responses ++ [[0x03, 0, 0, 0, 0]] }) ∧
  (∀ (s : State) (key data : List Byte), data.length % 16 = 0 → key.length ≠ 16 →
    exec (.decryptEcb key data) s = .next { s with responses := s.responses ++ [[0x01, 0, 0, 0, 0]] }) ∧
  (∀ (s : State) (k : Block),
    exec (.decryptEcb k.toList []) s = .next { s with responses := s.responses ++ [[0x03, 0, 0, 0, 0]] }) ∧
  (∀ (s : State) (k : Block) (data plain : List Byte), data.length % 16 = 0 →
    PaddedAs (ecbApply data (reversedKeys (keyExpand k))) plain →
    exec (.decryptEcb k.toList data) s = .next { s with responses := s.responses ++ [(Response.ok plain).encode] }) ∧
  (∀ (s : State) (k : Block) (data : List Byte), data.length % 16 = 0 → data ≠ [] →
    (¬ ∃ plain, PaddedAs (ecbApply data (reversedKeys (keyExpand k))) plain) →
    exec (.decryptEcb k.toList data) s = .next { s with responses := s.responses ++ [[0x04, 0, 0, 0, 0]] })

/-- R136 `ENCRYPT_ECB_CTX`. Under a context every buffer is padded and encrypted under `RK`; without one, `NoKeyError`; no state is written. -/
def Obligations.EncryptEcbCtxResult : Prop :=
  (∀ data, (Instr.encryptEcbCtx data).opcode = 0x06) ∧
  (∀ (s : State) (data : List Byte), s.keyValid = true → ∃ out : List Byte,
    out = ecbApply (pad Config.padBs data) s.rk ∧ out.length = 16 * (data.length / 16 + 1) ∧
    exec (.encryptEcbCtx data) s = .next { s with responses := s.responses ++ [(Response.ok out).encode] }) ∧
  (∀ (s : State) (data : List Byte), s.keyValid = false →
    exec (.encryptEcbCtx data) s = .next { s with responses := s.responses ++ [[0x05, 0, 0, 0, 0]] })

/-- R137 `DECRYPT_ECB_CTX`. `NoKeyError` first, then alignment, the empty buffer, padding; otherwise `OK` with the plaintext. No state is written. -/
def Obligations.DecryptEcbCtxResult : Prop :=
  (∀ data, (Instr.decryptEcbCtx data).opcode = 0x07) ∧
  (∀ (s : State) (data : List Byte), s.keyValid = false →
    exec (.decryptEcbCtx data) s = .next { s with responses := s.responses ++ [[0x05, 0, 0, 0, 0]] }) ∧
  (∀ (s : State) (data : List Byte), s.keyValid = true → data.length % 16 ≠ 0 ∨ data = [] →
    exec (.decryptEcbCtx data) s = .next { s with responses := s.responses ++ [[0x03, 0, 0, 0, 0]] }) ∧
  (∀ (s : State) (data plain : List Byte), s.keyValid = true → data.length % 16 = 0 →
    PaddedAs (ecbApply data (reversedKeys s.rk)) plain →
    exec (.decryptEcbCtx data) s = .next { s with responses := s.responses ++ [(Response.ok plain).encode] }) ∧
  (∀ (s : State) (data : List Byte), s.keyValid = true → data.length % 16 = 0 → data ≠ [] →
    (¬ ∃ plain, PaddedAs (ecbApply data (reversedKeys s.rk)) plain) →
    exec (.decryptEcbCtx data) s = .next { s with responses := s.responses ++ [[0x04, 0, 0, 0, 0]] })

/-- R118 `PAD`. Always `OK`, with the data followed by `N = 16 − (DLEN mod 16)` bytes of value `N`; no state is read or written. -/
def Obligations.PadResult : Prop :=
  (∀ data, (Instr.pad data).opcode = 0x08) ∧
  (∀ (s : State) (data : List Byte), ∃ out : List Byte,
    out = data ++ List.replicate (16 - data.length % 16) (BitVec.ofNat 8 (16 - data.length % 16)) ∧
    out.length = 16 * (data.length / 16 + 1) ∧
    exec (.pad data) s = .next { s with responses := s.responses ++ [(Response.ok out).encode] })

/-- R119 `UNPAD`. `AlignmentError` for an empty or misaligned buffer; otherwise `OK` with `plain` where the data is `plain` followed by valid
padding, and `PaddingError` where it is not; no state is read or written. -/
def Obligations.UnpadResult : Prop :=
  (∀ data, (Instr.unpad data).opcode = 0x09) ∧
  (∀ (s : State) (data : List Byte), data = [] ∨ data.length % 16 ≠ 0 →
    exec (.unpad data) s = .next { s with responses := s.responses ++ [[0x03, 0, 0, 0, 0]] }) ∧
  (∀ (s : State) (data plain : List Byte), data.length % 16 = 0 → PaddedAs data plain →
    exec (.unpad data) s = .next { s with responses := s.responses ++ [(Response.ok plain).encode] }) ∧
  (∀ (s : State) (data : List Byte), data ≠ [] → data.length % 16 = 0 → (¬ ∃ plain, PaddedAs data plain) →
    exec (.unpad data) s = .next { s with responses := s.responses ++ [[0x04, 0, 0, 0, 0]] })

/-- R131. The inline-key commands and the padding commands answer from their frame alone: one answer for all states, and nothing else changes. -/
def Obligations.KeylessCommandsIgnoreContext : Prop :=
  ∀ key data : List Byte, ∀ i ∈ [Instr.encryptEcb key data, .decryptEcb key data, .pad data, .unpad data],
    ∃ r : List Byte, ∀ s : State, exec i s = .next { s with responses := s.responses ++ [r] }

/-- R138. Under the context of a key, the context forms answer what the inline-key forms answer. -/
def Obligations.EcbFormsAgree : Prop :=
  ∀ (s : State) (k : Block) (d : List Byte), s.keyValid = true → s.rk = keyExpand k →
    exec (.encryptEcbCtx d) s = exec (.encryptEcb k.toList d) s ∧
    exec (.decryptEcbCtx d) s = exec (.decryptEcb k.toList d) s

/-! ## The datapath -/

/-- R31, R32. `BE32` is the rule's formula, `UNBE32` its inverse in both directions, and the rules' examples. -/
def Obligations.WordByteConversion : Prop :=
  (∀ b0 b1 b2 b3 : Byte, be32 b0 b1 b2 b3 =
    (b0.setWidth 32 <<< 24) ||| (b1.setWidth 32 <<< 16) ||| (b2.setWidth 32 <<< 8) ||| b3.setWidth 32) ∧
  (∀ b0 b1 b2 b3 : Byte, unbe32 (be32 b0 b1 b2 b3) = [b0, b1, b2, b3]) ∧
  (∀ w : Word, be32 (byte0 w) (byte1 w) (byte2 w) (byte3 w) = w ∧
    unbe32 w = [w.extractLsb 31 24, w.extractLsb 23 16, w.extractLsb 15 8, w.extractLsb 7 0]) ∧
  be32 0x01 0x23 0x45 0x67 = 0x01234567 ∧ unbe32 0x681EDF34 = [0x68, 0x1E, 0xDF, 0x34]

/-- R33, R34. `Unpack4` makes word `i` of bytes `4·i` to `4·i + 3`, `Pack4` is its inverse in both directions. -/
def Obligations.BlockWordConversion : Prop :=
  (∀ b : Block, unpack4 b = ⟨Reference.be32 (Reference.memRead b.toList 0 4), Reference.be32 (Reference.memRead b.toList 4 4),
    Reference.be32 (Reference.memRead b.toList 8 4), Reference.be32 (Reference.memRead b.toList 12 4)⟩) ∧
  (∀ w0 w1 w2 w3 : Word, (pack4 w0 w1 w2 w3).toList = unbe32 w0 ++ unbe32 w1 ++ unbe32 w2 ++ unbe32 w3) ∧
  (∀ w : Window, unpack4 (pack4 w.a0 w.a1 w.a2 w.a3) = w) ∧
  (∀ b : Block, pack4 (unpack4 b).a0 (unpack4 b).a1 (unpack4 b).a2 (unpack4 b).a3 = b)

/-- R12. The decryption-order view: `RKD[i] = RK[31 − i]` for every `i`. -/
def Obligations.ReversedKeysView : Prop :=
  ∀ (rk : RoundKeys) (i : Nat) (_ : i < 32), (reversedKeys rk)[i] = rk[31 - i]

/-- R70. Left rotation: bit `j` becomes bit `(j + n) mod 32`; rotation by 0 is nothing; the rule's corner cases and example. -/
def Obligations.RotationMovesBits : Prop :=
  (∀ (x : Word) (n j : Nat), n ≤ 31 → j < 32 → (rotl x n).getLsbD ((j + n) % 32) = x.getLsbD j) ∧
  (∀ x : Word, rotl x 0 = x) ∧
  (∀ (x : Word) (n : Nat), 1 ≤ n → n ≤ 31 →
    (rotl x n).toNat = (x.toNat * 2 ^ n ||| x.toNat / 2 ^ (32 - n)) % 2 ^ 32) ∧
  (∀ n : Nat, n ≤ 31 → rotl 0 n = 0 ∧ rotl 0xFFFFFFFF n = 0xFFFFFFFF) ∧
  rotl 0x80000000 1 = 0x00000001 ∧ rotl 0x01234567 13 = 0x68ACE024

/-- R76. `tau` substitutes each byte in its place, is a permutation of the words, is not linear, and the rule's corner cases and example. -/
def Obligations.TauPermutesWords : Prop :=
  (∀ b0 b1 b2 b3 : Byte, tau (be32 b0 b1 b2 b3) = be32 (sbox b0) (sbox b1) (sbox b2) (sbox b3)) ∧
  Function.Bijective tau ∧ (¬ ∀ a b : Word, tau (a ^^^ b) = tau a ^^^ tau b) ∧
  tau 0x00000000 = 0xD6D6D6D6 ∧ tau 0xFFFFFFFF = 0x48484848 ∧ tau 0x71717171 = 0 ∧ tau 0xABABABAB = 0xABABABAB ∧
  tau 0x8283CB69 = 0x8AD24122

/-- R77, R78. The two diffusions are the rules' formulas, are linear over XOR, and the rules' corner cases and examples. -/
def Obligations.DiffusionsLinear : Prop :=
  (∀ b : Word, diffL b = b ^^^ rotl b 2 ^^^ rotl b 10 ^^^ rotl b 18 ^^^ rotl b 24 ∧
    diffLp b = b ^^^ rotl b 13 ^^^ rotl b 23) ∧
  (∀ a b : Word, diffL (a ^^^ b) = diffL a ^^^ diffL b ∧ diffLp (a ^^^ b) = diffLp a ^^^ diffLp b) ∧
  diffL 0 = 0 ∧ diffL 0xFFFFFFFF = 0xFFFFFFFF ∧ diffL 1 = 0x01040405 ∧ diffL 0x80000000 = 0x80820202 ∧
  diffL 0x18E992B1 = 0x26D99622 ∧ diffLp 0 = 0 ∧ diffLp 0xFFFFFFFF = 0xFFFFFFFF ∧ diffLp 1 = 0x00802001 ∧
  diffLp 0x80000000 = 0x80401000 ∧ diffLp 0x8AD24122 = 0x53B37958

/-- R79, R80. `T` is `L` after `tau` and `Tp` is `Lp` after `tau`, with the rules' corner cases and examples; and the two are not the same. -/
def Obligations.CombinatorsCompose : Prop :=
  (∀ x : Word, combT x = diffL (tau x) ∧ combTp x = diffLp (tau x)) ∧
  combT 0x00000000 = 0x5B5B5B5B ∧ combT 0xFFFFFFFF = 0x21212121 ∧ combT 0x71717171 = 0 ∧ combT 0xF002C39E = 0x26D99622 ∧
  combTp 0x00000000 = 0x67676767 ∧ combTp 0xFFFFFFFF = 0x65656565 ∧ combTp 0x71717171 = 0 ∧ combTp 0x8283CB69 = 0x53B37958 ∧
  combT ≠ combTp

/-- R72, R73, R74. What the three tables hold: `SBOX` is the rule's string of 256 bytes, entry 0 first, and a permutation with the rule's one zero
and one fixed point; `FK` is the rule's four words; byte `j` of `CK[i]` is `((4·i + j)·7) mod 256`. -/
def Obligations.TableContents : Prop :=
  (∀ i : Fin 256, sbox (BitVec.ofFin i) = BitVec.ofNat 8 (
    0xD690E9FECCE13DB716B614C228FB2C052B679A762ABE04C3AA441326498606999C4250F491EF987A33540B43EDCFAC62E4B31CA9C908E89580DF94FA758F3FA64707A7FCF37317BA83593C19E6854FA8686B81B27164DA8BF8EB0F4B70569D351E240E5E6358D1A225227C3B01217887D40046579FD327524C3602E7A0C4C89EEABF8AD240C738B5A3F7F2CEF96115A1E0AE5DA49B341A55AD933230F58CB1E31DF6E22E8266CA60C02923AB0D534E6FD5DB3745DEFD8E2F03FF6A726D6C5B518D1BAF92BBDDBC7F11D95C411F105AD80AC13188A5CD7BBD2D74D012B8E5B4B08969974A0C96777E65B9F109C56EC68418F07DEC3ADC4D2079EE5F3ED7CB3948
      / 256 ^ (255 - i.val))) ∧
  Function.Bijective sbox ∧ (∀ x : Byte, sbox x = 0x00 ↔ x = 0x71) ∧ (∀ x : Byte, sbox x = x ↔ x = 0xAB) ∧
  fk = ⟨0xA3B1BAC6, 0x56AA3350, 0x677D9197, 0xB27022DC⟩ ∧
  (∀ (i : Nat) (_ : i < 32), unbe32 ck[i] = (List.range 4).map fun j => BitVec.ofNat 8 ((4 * i + j) * 7 % 256))

/-- R73, R90, R91. The round keys are the words `K[4..35]` of the schedule: seeded with the key's words XORed with `FK`, each further word from the
four before it and one `CK` word, through `tau` and the key-schedule diffusion `Lp`; and what `CK` holds, in the closed form of R74. -/
def Obligations.KeyScheduleRecurrence : Prop :=
  ∀ key : Block, ∃ K : Nat → Word,
    K 0 = be32 key[0] key[1] key[2] key[3] ^^^ 0xA3B1BAC6 ∧ K 1 = be32 key[4] key[5] key[6] key[7] ^^^ 0x56AA3350 ∧
    K 2 = be32 key[8] key[9] key[10] key[11] ^^^ 0x677D9197 ∧ K 3 = be32 key[12] key[13] key[14] key[15] ^^^ 0xB27022DC ∧
    (∀ (i : Nat) (_ : i < 32), K (i + 4) = K i ^^^ diffLp (tau (K (i + 1) ^^^ K (i + 2) ^^^ K (i + 3) ^^^ ck[i]))) ∧
    (∀ (i : Nat) (_ : i < 32), unbe32 ck[i] =
      (List.range 4).map fun j => BitVec.ofNat 8 ((4 * i + j) * 7 % 256)) ∧
    (∀ (i : Nat) (_ : i < 32), (keyExpand key)[i] = K (i + 4))

/-- R100, R101, R102. The output of the block transform is the last four of the words `X[0..35]` in reverse order: `X[0..3]` the block's words, each
further word from the four before it and one round key, through `tau` and the encryption diffusion `L`. -/
def Obligations.CryptRecurrence : Prop :=
  ∀ (b : Block) (k : RoundKeys), ∃ X : Nat → Word,
    X 0 = be32 b[0] b[1] b[2] b[3] ∧ X 1 = be32 b[4] b[5] b[6] b[7] ∧
    X 2 = be32 b[8] b[9] b[10] b[11] ∧ X 3 = be32 b[12] b[13] b[14] b[15] ∧
    (∀ (i : Nat) (_ : i < 32), X (i + 4) = X i ^^^ diffL (tau (X (i + 1) ^^^ X (i + 2) ^^^ X (i + 3) ^^^ k[i]))) ∧
    (crypt b k).toList = unbe32 (X 35) ++ unbe32 (X 34) ++ unbe32 (X 33) ++ unbe32 (X 32)

/-- R106. Decryption inverts encryption, for every block and every 32 words, whatever they come from. -/
def Obligations.CryptInverse : Prop :=
  ∀ (b : Block) (r : RoundKeys), crypt (crypt b r) (reversedKeys r) = b

/-- R108. Under any context, the two block commands are inverse permutations of the blocks: each answers the other's argument, in both orders. -/
def Obligations.BlockCommandsArePermutations : Prop :=
  (∀ r : RoundKeys, Function.Bijective fun b : Block => crypt b r) ∧
  (∀ (s : State) (b : Block), s.keyValid = true →
    ∃ c d : Block,
      exec (.encryptBlock b.toList) s = .next { s with responses := s.responses ++ [(Response.ok c.toList).encode] } ∧
      exec (.decryptBlock c.toList) s = .next { s with responses := s.responses ++ [(Response.ok b.toList).encode] } ∧
      exec (.decryptBlock b.toList) s = .next { s with responses := s.responses ++ [(Response.ok d.toList).encode] } ∧
      exec (.encryptBlock d.toList) s = .next { s with responses := s.responses ++ [(Response.ok b.toList).encode] })

/-! ## Padding and ECB -/

/-- R115, R116. The encoder adds `N` bytes of value `N`, `1 ≤ N ≤ bs`; the padded length is the smallest multiple of the block size strictly greater
than the data's; for 16 it is the source's `16 * ceil((len + 1) / 16)`. -/
def Obligations.PadLengths : Prop :=
  (∀ (bs : BlockSize) (data : List Byte), ∃ n, n = bs.size - data.length % bs.size ∧ 1 ≤ n ∧ n ≤ bs.size ∧
    pad bs data = data ++ List.replicate n (BitVec.ofNat 8 n) ∧
    (pad bs data).length = bs.size * (data.length / bs.size + 1) ∧ data.length < (pad bs data).length ∧
    ∀ m, bs.size ∣ m → data.length < m → (pad bs data).length ≤ m) ∧
  (∀ data : List Byte, (pad Config.padBs data).length = 16 * ((data.length + 1 + 15) / 16))

/-- R117. The decoder's three checks, in their order, and its result. -/
def Obligations.UnpadChecksInOrder : Prop :=
  ∀ (bs : BlockSize) (data : List Byte),
    (data.length = 0 ∨ data.length % bs.size ≠ 0 → unpad bs data = .error .misaligned) ∧
    (data.length ≠ 0 → data.length % bs.size = 0 → ∀ n, n = (Reference.byteAt data (data.length - 1)).toNat →
      (n < 1 ∨ bs.size < n → unpad bs data = .error .invalidPaddingValue) ∧
      (1 ≤ n → n ≤ bs.size →
        (∃ i, data.length - n ≤ i ∧ i < data.length ∧ (Reference.byteAt data i).toNat ≠ n) →
        unpad bs data = .error .corruptedPadding) ∧
      (1 ≤ n → n ≤ bs.size →
        (∀ i, data.length - n ≤ i → i < data.length → (Reference.byteAt data i).toNat = n) →
        unpad bs data = .ok (Reference.memRead data 0 (data.length - n))))

/-- R120. The codec is reversible in both directions: what the decoder accepts is exactly what the encoder produces. -/
def Obligations.PaddingReversible : Prop :=
  (∀ (bs : BlockSize) (x : List Byte), unpad bs (pad bs x) = .ok x) ∧
  (∀ (bs : BlockSize) (data y : List Byte), unpad bs data = .ok y → pad bs y = data)

/-- R43, R130. ECB apply: block `j` of the output is the transform of block `j` of the input, and the output has the input's length. -/
def Obligations.EcbAppliesBlockwise : Prop :=
  ∀ (b : List Byte) (k : RoundKeys), b.length % 16 = 0 →
    (ecbApply b k).length = b.length ∧
    ∀ (j : Nat) (blk : Block), j < b.length / 16 → blk.toList = Reference.memRead b (16 * j) 16 →
      Reference.memRead (ecbApply b k) (16 * j) 16 = (crypt blk k).toList

/-- R132. ECB encryption pads and applies; its length; its last block is the encryption of the bytes after the last whole block followed by 1 to 16
bytes of padding, which for a buffer of whole blocks is sixteen bytes 0x10. -/
def Obligations.EcbPadBlock : Prop :=
  ∀ (d : List Byte) (rk : RoundKeys),
    ecbEncrypt d rk = ecbApply (pad Config.padBs d) rk ∧
    (ecbEncrypt d rk).length = 16 * (d.length / 16 + 1) ∧ 16 ≤ (ecbEncrypt d rk).length ∧
    (∃ (n : Nat) (last : Block), 1 ≤ n ∧ n ≤ 16 ∧
      last.toList = d.drop (16 * (d.length / 16)) ++ List.replicate n (BitVec.ofNat 8 n) ∧
      ecbEncrypt d rk = ecbApply (d.take (16 * (d.length / 16))) rk ++ (crypt last rk).toList) ∧
    (d.length % 16 = 0 → ecbEncrypt d rk = ecbApply d rk ++ (crypt (Vector.replicate 16 0x10) rk).toList)

/-- R139. There is no chaining: under one key, whole plaintext blocks at any two positions of any two buffers are equal exactly when their ciphertext
blocks are. -/
def Obligations.EcbKeepsBlockEquality : Prop :=
  ∀ (rk : RoundKeys) (d d' : List Byte) (j j' : Nat), 16 * j + 16 ≤ d.length → 16 * j' + 16 ≤ d'.length →
    (Reference.memRead (ecbEncrypt d rk) (16 * j) 16 = Reference.memRead (ecbEncrypt d' rk) (16 * j') 16 ↔
      Reference.memRead d (16 * j) 16 = Reference.memRead d' (16 * j') 16)

/-- R140. Round trip, for every buffer: decrypting what ECB encryption answered answers the buffer, for the inline-key forms from any two states and for
the context forms under one context. -/
def Obligations.EcbRoundTrip : Prop :=
  (∀ (s s' : State) (k : Block) (d : List Byte), ∃ r : List Byte,
    exec (.encryptEcb k.toList d) s = .next { s with responses := s.responses ++ [(Response.ok r).encode] } ∧
    exec (.decryptEcb k.toList r) s' = .next { s' with responses := s'.responses ++ [(Response.ok d).encode] }) ∧
  (∀ (s : State) (d : List Byte), s.keyValid = true → ∃ r : List Byte,
    exec (.encryptEcbCtx d) s = .next { s with responses := s.responses ++ [(Response.ok r).encode] } ∧
    exec (.decryptEcbCtx r) s = .next { s with responses := s.responses ++ [(Response.ok d).encode] })

/-- What R141 says the rules give exactly: an ECB decryption succeeds precisely when the decryption of the last block ends in valid padding; a
change confined to earlier blocks is never detected, and the plaintext differs in just the blocks that were changed. What an ECB decryption is
(R133): apply under the reversed keys, then the padding decoder. -/
def Obligations.EcbEarlierDamageUndetected : Prop :=
  (∀ (rk : RoundKeys) (b : List Byte), ecbDecrypt b rk = unpad Config.padBs (ecbApply b (reversedKeys rk))) ∧
  (∀ (s : State) (k : Block) (b p : List Byte), b.length % 16 = 0 → ecbDecrypt b (keyExpand k) = .ok p →
    exec (.decryptEcb k.toList b) s = .next { s with responses := s.responses ++ [(Response.ok p).encode] }) ∧
  (∀ (s : State) (b p : List Byte), s.keyValid = true → b.length % 16 = 0 → ecbDecrypt b s.rk = .ok p →
    exec (.decryptEcbCtx b) s = .next { s with responses := s.responses ++ [(Response.ok p).encode] }) ∧
  (∀ (rk : RoundKeys) (b : List Byte) (last : Block), b.length % 16 = 0 → 16 ≤ b.length →
    last.toList = b.drop (b.length - 16) →
    ((∃ p, ecbDecrypt b rk = .ok p) ↔ ∃ p, PaddedAs (crypt last (reversedKeys rk)).toList p)) ∧
  (∀ (rk : RoundKeys) (b b' p : List Byte), b.length = b'.length → b.length % 16 = 0 → 16 ≤ b.length →
    b.drop (b.length - 16) = b'.drop (b'.length - 16) → ecbDecrypt b rk = .ok p →
    ∃ p' : List Byte, ecbDecrypt b' rk = .ok p' ∧ p'.length = p.length ∧
      p.drop (b.length - 16) = p'.drop (b.length - 16) ∧
      ∀ j, 16 * j + 32 ≤ b.length →
        (Reference.memRead p (16 * j) 16 = Reference.memRead p' (16 * j) 16 ↔
          Reference.memRead b (16 * j) 16 = Reference.memRead b' (16 * j) 16))
end

