-- ==== Sys2Proof/Laws/Operands.lean ====
section
/-! SUPPORT. What the operand forms can give: lengths, the length test, and the cutting and joining of blocks. -/

namespace Sys2Proof.Machine

/-- Bit `i` of a word made of four bytes (R31). -/
theorem be32_getLsbD (b0 b1 b2 b3 : Byte) (i : Nat) : (be32 b0 b1 b2 b3).getLsbD i =
    if i < 8 then b3.getLsbD i else if i < 16 then b2.getLsbD (i - 8) else if i < 24 then b1.getLsbD (i - 16)
    else b0.getLsbD (i - 24) := by
  show (b0 ++ b1 ++ b2 ++ b3 : BitVec (8 + 8 + 8 + 8)).getLsbD i = _
  simp only [BitVec.getLsbD_append, Nat.sub_sub]
  grind

/-- The first byte of a word made of four (R31). -/
@[simp] theorem byte0_be32 (b0 b1 b2 b3 : Byte) : byte0 (be32 b0 b1 b2 b3) = b0 := by
  ext i hi
  simp only [byte0, BitVec.getElem_extractLsb', be32_getLsbD]
  simp [show ¬ 24 + i < 8 by omega, show ¬ 24 + i < 16 by omega, BitVec.getLsbD_eq_getElem hi]

/-- The second byte of a word made of four (R31). -/
@[simp] theorem byte1_be32 (b0 b1 b2 b3 : Byte) : byte1 (be32 b0 b1 b2 b3) = b1 := by
  ext i hi
  simp only [byte1, BitVec.getElem_extractLsb', be32_getLsbD]
  simp [show ¬ 16 + i < 8 by omega, show 16 + i < 24 by omega, BitVec.getLsbD_eq_getElem hi]

/-- The third byte of a word made of four (R31). -/
@[simp] theorem byte2_be32 (b0 b1 b2 b3 : Byte) : byte2 (be32 b0 b1 b2 b3) = b2 := by
  ext i hi
  simp only [byte2, BitVec.getElem_extractLsb', be32_getLsbD]
  simp [show ¬ 8 + i < 8 by omega, show 8 + i < 16 by omega, BitVec.getLsbD_eq_getElem hi]

/-- The last byte of a word made of four (R31). -/
@[simp] theorem byte3_be32 (b0 b1 b2 b3 : Byte) : byte3 (be32 b0 b1 b2 b3) = b3 := by
  ext i hi
  simp only [byte3, BitVec.getElem_extractLsb', be32_getLsbD]
  simp [hi]

@[simp] theorem unbe32_length (w : Word) : (unbe32 w).length = 4 := rfl

/-- The length test accepts exactly 16 bytes (R39). -/
theorem toBlock_eq_none {b : List Byte} : toBlock b = none ↔ b.length ≠ 16 := by
  unfold toBlock; split <;> simp_all

/-- What the length test accepts, it hands on unchanged (R39). -/
theorem toBlock_eq_some {b : List Byte} {blk : Block} : toBlock b = some blk ↔ blk.toList = b := by
  unfold toBlock
  split
  next h =>
    constructor
    · intro e; cases e; rfl
    · rintro rfl; rfl
  next h =>
    constructor
    · intro e; cases e
    · rintro rfl; simp at h

@[simp] theorem toBlock_toList (blk : Block) : toBlock blk.toList = some blk := toBlock_eq_some.2 rfl

/-- Sixteen bytes are a block (R39). -/
theorem exists_toBlock {b : List Byte} (h : b.length = 16) : ∃ blk : Block, toBlock b = some blk ∧ blk.toList = b :=
  ⟨⟨⟨b⟩, h⟩, toBlock_eq_some.2 rfl, rfl⟩

@[simp] theorem joinBlocks_length (bs : List Block) : (joinBlocks bs).length = 16 * bs.length := by
  induction bs with
  | nil => rfl
  | cons b bs ih => simp [joinBlocks, ih]; omega

/-- A buffer of at least `16·n` bytes gives `n` blocks (R43). -/
theorem takeBlocks_length {n : Nat} {b : List Byte} (h : 16 * n ≤ b.length) : (takeBlocks n b).length = n := by
  induction n generalizing b with
  | zero => rfl
  | succ n ih =>
    obtain ⟨blk, hblk, -⟩ := exists_toBlock (b := b.take 16) (by simp; omega)
    simp [takeBlocks, hblk, ih (b := b.drop 16) (by simp; omega)]

/-- Cutting a joined list of blocks gives the blocks back, whatever follows them (R43). -/
theorem takeBlocks_joinBlocks (bs : List Block) (rest : List Byte) :
    takeBlocks bs.length (joinBlocks bs ++ rest) = bs := by
  induction bs with
  | nil => rfl
  | cons b bs ih =>
    have h16 : b.toList.length = 16 := by simp
    simp [takeBlocks, joinBlocks, List.append_assoc, h16, ih]

@[simp] theorem splitBlocks_joinBlocks (bs : List Block) : splitBlocks (joinBlocks bs) = bs := by
  have h := takeBlocks_joinBlocks bs []
  simpa [splitBlocks] using h

/-- Joining the blocks of `16·n` bytes gives the bytes back (R43). -/
theorem joinBlocks_takeBlocks {n : Nat} {b : List Byte} (h : b.length = 16 * n) : joinBlocks (takeBlocks n b) = b := by
  induction n generalizing b with
  | zero => simpa [takeBlocks, joinBlocks] using (List.eq_nil_of_length_eq_zero h).symm
  | succ n ih =>
    obtain ⟨blk, hblk, e⟩ := exists_toBlock (b := b.take 16) (by simp; omega)
    simp [takeBlocks, joinBlocks, hblk, e, ih (b := b.drop 16) (by simp; omega)]

@[simp] theorem splitBlocks_length (b : List Byte) : (splitBlocks b).length = b.length / 16 :=
  takeBlocks_length (by omega)

@[simp] theorem reversedKeys_toList (rk : RoundKeys) : (reversedKeys rk).toList = rk.toList.reverse := rfl

/-- Reversing the keys twice gives the original order (R108). -/
@[simp] theorem reversedKeys_reversedKeys (rk : RoundKeys) : reversedKeys (reversedKeys rk) = rk := by
  apply Vector.toList_inj.1; simp

end Sys2Proof.Machine
end

