-- ==== Sys2Proof/Laws/Codec.lean ====
section
/-! SUPPORT. Lengths: of frames, of padded buffers and of ECB results. -/

namespace Sys2Proof

@[simp] theorem frameOf_length (op : Byte) (key data : List Byte) :
    (frameOf op key data).length = 6 + key.length + data.length := by
  simp [frameOf, Machine.unbe32]; omega

theorem bytesMsbFirst_length (n w : Nat) : (bytesMsbFirst n w).length = n := by
  induction n with
  | zero => rfl
  | succ n ih => simp [bytesMsbFirst, ih]

end Sys2Proof

namespace Sys2Proof.Machine

/-- The encoder adds at least one byte and at most a block (R115). -/
theorem padCount_bounds (bs : BlockSize) (len : Nat) : 1 ≤ padCount bs len ∧ padCount bs len ≤ bs.size := by
  have := Nat.mod_lt len (show 0 < bs.size from bs.pos)
  unfold padCount; omega

theorem pad_length_eq (bs : BlockSize) (data : List Byte) : (pad bs data).length = data.length + padCount bs data.length := by
  simp [pad]

/-- ECB apply keeps the length of a buffer of whole blocks (R43, R130). -/
theorem ecbApply_length_eq (b : List Byte) (k : RoundKeys) : (ecbApply b k).length = 16 * (b.length / 16) := by
  simp [ecbApply]

/-- Everything the decoder accepts, and what it then gives (R117): the data is the result followed by valid padding. -/
theorem unpad_eq_ok {bs : BlockSize} {data out : List Byte} : unpad bs data = .ok out ↔
    ∃ n, 1 ≤ n ∧ n ≤ bs.size ∧ data.length % bs.size = 0 ∧ data = out ++ List.replicate n (BitVec.ofNat 8 n) := by
  constructor
  · intro h
    unfold unpad at h
    split at h
    · cases h
    next last hlast =>
      split at h
      · cases h
      next hmod =>
        split at h
        · cases h
        next hrange =>
          split at h
          next hall =>
            cases h
            have hmod' : data.length % bs.size = 0 := by simpa using hmod
            have hne : data ≠ [] := by rintro rfl; cases hlast
            have hle : bs.size ≤ data.length :=
              Nat.le_of_dvd (List.length_pos_iff.2 hne) (Nat.dvd_of_mod_eq_zero hmod')
            refine ⟨last.toNat, by omega, by omega, hmod', ?_⟩
            have hdrop : data.drop (data.length - last.toNat) = List.replicate last.toNat last := by
              rw [List.eq_replicate_iff]
              exact ⟨by simp; omega, by simpa using hall⟩
            rw [BitVec.ofNat_toNat, BitVec.setWidth_eq, ← hdrop, List.take_append_drop]
          · cases h
  · rintro ⟨n, h1, h2, hmod, rfl⟩
    have hn : (BitVec.ofNat 8 n).toNat = n := by have := bs.le; simp; omega
    have hlast : (out ++ List.replicate n (BitVec.ofNat 8 n)).getLast? = some (BitVec.ofNat 8 n) := by
      rw [List.getLast?_append, List.getLast?_replicate]; simp [show n ≠ 0 by omega]
    unfold unpad
    rw [hlast]
    simp only [hmod, hn]
    simp [show ¬ n < 1 by omega, show ¬ bs.size < n by omega]

/-- The decoder never gives more than it is given (R117). -/
theorem unpad_length_le {bs : BlockSize} {data out : List Byte} (h : unpad bs data = .ok out) :
    out.length ≤ data.length := by
  unfold unpad at h
  repeat' split at h
  all_goals first | cases h; simp | cases h

end Sys2Proof.Machine
end

