-- ==== Sys2Proof/Laws/Engine.lean ====
section
/-! SUPPORT. The sliding window of the two engines (R82), one round at a time and over a list of rounds. -/

namespace Sys2Proof.Machine

/-- One round on the window (R82). -/
theorem blockRounds_cons (w : Window) (k : Word) (ks : List Word) :
    blockRounds w (k :: ks) = blockRounds (w.slide (roundF w k)) ks := rfl

/-- Rounds one list after the other. -/
theorem blockRounds_append (w : Window) (ks ls : List Word) :
    blockRounds w (ks ++ ls) = blockRounds (blockRounds w ks) ls := by
  induction ks generalizing w with
  | nil => rfl
  | cons k ks ih => exact ih _

/-- The four words in reverse order, as the output of the block transform reads them (R102). -/
def Window.reversed (w : Window) : Window := ⟨w.a3, w.a2, w.a1, w.a0⟩

/-- One round undoes one round of the same key on the reversed window, whatever `T` is (R106). -/
theorem round_reversed (w : Window) (k : Word) :
    (w.slide (roundF w k)).reversed.slide (roundF (w.slide (roundF w k)).reversed k) = w.reversed := by
  cases w with
  | mk a b c d =>
    have h : d ^^^ c ^^^ b ^^^ k = b ^^^ c ^^^ d ^^^ k := by ac_rfl
    simp [Window.reversed, Window.slide, roundF, h]

end Sys2Proof.Machine
end

