-- ==== Sys2Proof/Laws/State.lean ====
section
/-! SUPPORT. One lemma per field per update of the state, so that no later proof unfolds a record update. -/

namespace Sys2Proof.Machine

variable (s : State)

@[simp] theorem State.respond_keyValid (r : Response) : (s.respond r).keyValid = s.keyValid := rfl
@[simp] theorem State.respond_rk (r : Response) : (s.respond r).rk = s.rk := rfl
@[simp] theorem State.respond_events (r : Response) : (s.respond r).events = s.events := rfl
@[simp] theorem State.respond_responses (r : Response) : (s.respond r).responses = s.responses ++ [r.encode] := rfl
@[simp] theorem State.respond_freshCount (r : Response) : (s.respond r).freshCount = s.freshCount := rfl

@[simp] theorem State.loadContext_keyValid (rk : RoundKeys) : (s.loadContext rk).keyValid = true := rfl
@[simp] theorem State.loadContext_rk (rk : RoundKeys) : (s.loadContext rk).rk = rk := rfl
@[simp] theorem State.loadContext_events (rk : RoundKeys) : (s.loadContext rk).events = s.events := rfl
@[simp] theorem State.loadContext_responses (rk : RoundKeys) : (s.loadContext rk).responses = s.responses := rfl
@[simp] theorem State.loadContext_freshCount (rk : RoundKeys) : (s.loadContext rk).freshCount = s.freshCount := rfl

@[simp] theorem State.resetEvent_keyValid : (s.resetEvent).keyValid = false := rfl
@[simp] theorem State.resetEvent_rk : (s.resetEvent).rk = freshKeys s.freshCount := rfl
@[simp] theorem State.resetEvent_events : (s.resetEvent).events = s.events := rfl
@[simp] theorem State.resetEvent_responses : (s.resetEvent).responses = s.responses := rfl
@[simp] theorem State.resetEvent_freshCount : (s.resetEvent).freshCount = s.freshCount + 32 := rfl

@[simp] theorem State.withFetchWord_keyValid (nbits w : Nat) : (s.withFetchWord nbits w).keyValid = s.keyValid := rfl
@[simp] theorem State.withFetchWord_rk (nbits w : Nat) : (s.withFetchWord nbits w).rk = s.rk := rfl
@[simp] theorem State.withFetchWord_events (nbits w : Nat) : (s.withFetchWord nbits w).events = .frame (tableFrame nbits w) :: s.events := rfl
@[simp] theorem State.withFetchWord_responses (nbits w : Nat) : (s.withFetchWord nbits w).responses = s.responses := rfl
@[simp] theorem State.withFetchWord_freshCount (nbits w : Nat) : (s.withFetchWord nbits w).freshCount = s.freshCount := rfl

/-- The context is the file `RK` while `KEY_VALID = 1` (R14). -/
theorem State.context_loaded (h : s.keyValid = true) : s.context = some s.rk := by simp [State.context, h]

/-- There is no context while `KEY_VALID = 0` (R14). -/
theorem State.context_none (h : s.keyValid = false) : s.context = none := by simp [State.context, h]

/-- Answering a command leaves the context alone (R15). -/
@[simp] theorem State.respond_context (r : Response) : (s.respond r).context = s.context := rfl

/-- A loaded context is the one that was loaded (R23). -/
@[simp] theorem State.loadContext_context (rk : RoundKeys) : (s.loadContext rk).context = some rk := rfl

/-- A Reset event leaves no context (R181). -/
@[simp] theorem State.resetEvent_context : s.resetEvent.context = none := rfl

end Sys2Proof.Machine
end

