-- ==== Sys2Proof/Laws/Ops.lean ====
section
/-! SUPPORT. What the shared operations of Machine/Ops.lean and Machine/Padding.lean can do: each answers a next state that differs from the one
it found in the one response sent. -/

namespace Sys2Proof.Machine

/-- Everything `answerOk` does (R55). -/
theorem answerOk_eq (rdata : List Byte) (s : State) : answerOk rdata s = .next (s.respond (.ok rdata)) := rfl

/-- Everything `raise` does (R153, R154, R162). -/
theorem raise_eq (e : Failure) (s : State) : raise e s = .next (s.respond (.fail e)) := rfl

/-- Everything `answerUnpad` does (R167): one answer, `OK` with the decoder's bytes or the failure its failure stands for. -/
theorem answerUnpad_eq (r : Except UnpadFailure (List Byte)) (s : State) :
    answerUnpad r s = .next (s.respond (match r with | .ok b => .ok b | .error e => .fail e.failure)) := by
  cases r <;> rfl

/-- A failure's frame is its code and four zero bytes (R153). -/
@[simp] theorem Response.encode_fail (e : Failure) : (Response.fail e).encode = [e.code, 0, 0, 0, 0] := by
  cases e <;> decide

/-- The frame of a success (R60). -/
theorem Response.encode_ok (b : List Byte) : (Response.ok b).encode = 0 :: unbe32 (BitVec.ofNat 32 b.length) ++ b := rfl

@[simp] theorem Response.encode_length (r : Response) : r.encode.length = 5 + r.rdata.length := by
  simp [Response.encode, unbe32]; omega

/-- The state a failure leaves, written out (R153, R154). -/
theorem State.respond_fail (s : State) (e : Failure) :
    s.respond (.fail e) = { s with responses := s.responses ++ [[e.code, 0, 0, 0, 0]] } := by simp [State.respond]

/-- No failure has the code of success (R56). -/
theorem Failure.code_ne_zero (e : Failure) : e.code ≠ 0 := by cases e <;> decide

/-- Distinct failures have distinct codes (R56). -/
theorem Failure.code_injective {e e' : Failure} (h : e.code = e'.code) : e = e' := by
  revert h; cases e <;> cases e' <;> decide

/-- The codes are 1 to 6 (R56). -/
theorem Failure.code_le (e : Failure) : e.code.toNat ≤ 6 := by cases e <;> decide

end Sys2Proof.Machine
end

