-- ==== Sys2Proof/Laws/Exec.lean ====
section
/-! SUPPORT. Once, what a command and a step can do; invariants are derived from these. -/

namespace Sys2Proof.Machine

/-- The answer of a command as a function of the command and the context alone (R42, R167). -/
def responseOf (i : Instr) (c : Option RoundKeys) : Response :=
  let ofUnpad : Except UnpadFailure (List Byte) → Response
    | .ok b => .ok b
    | .error e => .fail e.failure
  let ofKey (key : List Byte) (f : RoundKeys → Response) : Response :=
    match toBlock key with
    | none => .fail .keyLengthError
    | some k => f (keyExpand k)
  let ofContext (f : RoundKeys → Response) : Response :=
    match c with
    | none => .fail .noKeyError
    | some rk => f rk
  let ofBlock (data : List Byte) (f : Block → Block) : Response :=
    match toBlock data with
    | none => .fail .blockLengthError
    | some b => .ok (f b).toList
  match i with
  | .construct key => ofKey key fun _ => .ok []
  | .encryptBlock data => ofContext fun rk => ofBlock data fun b => crypt b rk
  | .decryptBlock data => ofContext fun rk => ofBlock data fun b => crypt b (reversedKeys rk)
  | .encryptEcb key data => ofKey key fun rk => .ok (ecbEncrypt data rk)
  | .decryptEcb key data =>
    if data.length % 16 ≠ 0 then .fail .alignmentError else ofKey key fun rk => ofUnpad (ecbDecrypt data rk)
  | .encryptEcbCtx data => ofContext fun rk => .ok (ecbEncrypt data rk)
  | .decryptEcbCtx data => ofContext fun rk =>
    if data.length % 16 ≠ 0 then .fail .alignmentError else ofUnpad (ecbDecrypt data rk)
  | .pad data => .ok (pad Config.padBs data)
  | .unpad data => ofUnpad (unpad Config.padBs data)

/-- The round keys a command loads, if it loads any: only a `CONSTRUCT` with a 16-byte key does (R13, R21). -/
def loadedBy : Instr → Option RoundKeys
  | .construct key => (toBlock key).map keyExpand
  | .encryptBlock _ => none
  | .decryptBlock _ => none
  | .encryptEcb _ _ => none
  | .decryptEcb _ _ => none
  | .encryptEcbCtx _ => none
  | .decryptEcbCtx _ => none
  | .pad _ => none
  | .unpad _ => none

/-- The state with a context loaded, where there is one to load. -/
def State.loadOptional (s : State) : Option RoundKeys → State
  | none => s
  | some rk => s.loadContext rk

@[simp] theorem State.loadOptional_none (s : State) : s.loadOptional none = s := rfl

@[simp] theorem State.loadOptional_some (s : State) (rk : RoundKeys) : s.loadOptional (some rk) = s.loadContext rk := rfl

@[simp] theorem State.loadOptional_events (s : State) (o : Option RoundKeys) : (s.loadOptional o).events = s.events := by
  cases o <;> rfl

@[simp] theorem State.loadOptional_responses (s : State) (o : Option RoundKeys) :
    (s.loadOptional o).responses = s.responses := by cases o <;> rfl

@[simp] theorem State.loadOptional_freshCount (s : State) (o : Option RoundKeys) :
    (s.loadOptional o).freshCount = s.freshCount := by cases o <;> rfl

/-- Everything a command does: it loads what it loads and sends its one answer (R55, R167). -/
theorem exec_eq (i : Instr) (s : State) :
    exec i s = .next ((s.loadOptional (loadedBy i)).respond (responseOf i s.context)) := by
  cases i with
  | construct key => simp only [exec, execConstruct, responseOf, loadedBy]; cases toBlock key <;> rfl
  | encryptBlock data =>
    simp only [exec, execEncryptBlock, responseOf, loadedBy]; cases s.context <;> [skip; cases toBlock data] <;> rfl
  | decryptBlock data =>
    simp only [exec, execDecryptBlock, responseOf, loadedBy]; cases s.context <;> [skip; cases toBlock data] <;> rfl
  | encryptEcb key data => simp only [exec, execEncryptEcb, responseOf, loadedBy]; cases toBlock key <;> rfl
  | decryptEcb key data =>
    simp only [exec, execDecryptEcb, responseOf, loadedBy]
    split
    · rfl
    · cases toBlock key <;> [rfl; exact answerUnpad_eq _ s]
  | encryptEcbCtx data => simp only [exec, execEncryptEcbCtx, responseOf, loadedBy]; cases s.context <;> rfl
  | decryptEcbCtx data =>
    simp only [exec, execDecryptEcbCtx, responseOf, loadedBy]
    cases s.context with
    | none => rfl
    | some rk => dsimp only; split <;> [rfl; exact answerUnpad_eq _ s]
  | pad data => rfl
  | unpad data => exact answerUnpad_eq _ s

/-- A step with nothing to do (R180; log 3). -/
theorem step_idle {s : State} (h : s.events = []) : step s = .next s := by simp [step, h]

/-- A step that takes a Reset event (R180). -/
theorem step_reset {s : State} {rest : List Event} (h : s.events = .reset :: rest) :
    step s = .next (State.resetEvent { s with events := rest }) := by simp [step, h]

/-- A step that takes an illegal frame (R58). -/
theorem step_illegal {s : State} {f : List Byte} {rest : List Event} {e : Illegal} (h : s.events = .frame f :: rest)
    (hd : decode f = .error e) :
    step s = .next (State.respond { s with events := rest } (.fail .illegalCommand)) := by
  simp [step, h, hd, raise_eq]

/-- A step that takes a command's frame, with what the command does (R167). -/
theorem step_frame {s : State} {f : List Byte} {rest : List Event} {i : Instr} (h : s.events = .frame f :: rest)
    (hd : decode f = .ok i) :
    step s = .next ((State.loadOptional { s with events := rest } (loadedBy i)).respond (responseOf i s.context)) := by
  simp only [step, h, hd, exec_eq]; rfl

/-- Everything a step can do. -/
theorem step_cases (s : State) :
    (s.events = [] ∧ step s = .next s) ∨
    (∃ rest, s.events = .reset :: rest ∧ step s = .next (State.resetEvent { s with events := rest })) ∨
    (∃ f rest e, s.events = .frame f :: rest ∧ decode f = .error e ∧
      step s = .next (State.respond { s with events := rest } (.fail .illegalCommand))) ∨
    (∃ f rest i, s.events = .frame f :: rest ∧ decode f = .ok i ∧
      step s = .next ((State.loadOptional { s with events := rest } (loadedBy i)).respond (responseOf i s.context))) := by
  match h : s.events with
  | [] => exact .inl ⟨rfl, step_idle h⟩
  | .reset :: rest => exact .inr (.inl ⟨rest, rfl, step_reset h⟩)
  | .frame f :: rest =>
    match hd : decode f with
    | .error e => exact .inr (.inr (.inl ⟨f, rest, e, rfl, hd, step_illegal h hd⟩))
    | .ok i => exact .inr (.inr (.inr ⟨f, rest, i, rfl, hd, step_frame h hd⟩))

/-- A run goes on from the next state. -/
theorem core_run_succ {s t : State} (h : step s = .next t) (n : Nat) : core.run (n + 1) s = core.run n t := by
  have hc : core.step s = .next t := h
  simp only [Host.Core.run]
  rw [hc]

/-- A run goes on from where a shorter run ended. -/
theorem core_run_add {s t : State} {n : Nat} (h : core.run n s = .next t) (m : Nat) : core.run (n + m) s = core.run m t := by
  induction n generalizing s with
  | zero => cases h; rw [Nat.zero_add]
  | succ n ih =>
    obtain ⟨u, hu⟩ : ∃ u, step s = .next u := by
      rcases step_cases s with ⟨-, e⟩ | ⟨_, -, e⟩ | ⟨_, _, _, -, -, e⟩ | ⟨_, _, _, -, -, e⟩ <;> exact ⟨_, e⟩
    rw [core_run_succ hu] at h
    rw [show n + 1 + m = n + m + 1 by omega, core_run_succ hu, ih h]

end Sys2Proof.Machine
end

