-- ==== Sys2Proof/Laws/PerInstr.lean ====
section
/-! SUPPORT. Per command: the family EncodeLength, the byte count of a command's frame (R52). -/

namespace Sys2Proof.Laws.EncodeLength

/-- A command's frame is exactly `6 + KLEN + DLEN` bytes long (R52). -/
def Statement (i : Instr) : Prop := (encode i).length = 6 + i.key.length + i.data.length

theorem construct (key : List Byte) : Statement (.construct key) := frameOf_length _ _ _
theorem encryptBlock (data : List Byte) : Statement (.encryptBlock data) := frameOf_length _ _ _
theorem decryptBlock (data : List Byte) : Statement (.decryptBlock data) := frameOf_length _ _ _
theorem encryptEcb (key data : List Byte) : Statement (.encryptEcb key data) := frameOf_length _ _ _
theorem decryptEcb (key data : List Byte) : Statement (.decryptEcb key data) := frameOf_length _ _ _
theorem encryptEcbCtx (data : List Byte) : Statement (.encryptEcbCtx data) := frameOf_length _ _ _
theorem decryptEcbCtx (data : List Byte) : Statement (.decryptEcbCtx data) := frameOf_length _ _ _
theorem pad (data : List Byte) : Statement (.pad data) := frameOf_length _ _ _
theorem unpad (data : List Byte) : Statement (.unpad data) := frameOf_length _ _ _

end Sys2Proof.Laws.EncodeLength
end

