-- ==== Sys2Proof/Tests/Slice0.lean ====
section
/-! SUPPORT. Tests of single steps against the spec's own vectors (95_test_vectors.md), and a witness for the hypotheses of each statement. Each
test's comment names the vector. -/

namespace Sys2Proof.Tests
open Sys2Proof Sys2Proof.Machine

/-! ## Helpers -/

/-- `k1` of 95_test_vectors.md. -/
def k1 : Block := #v[0x01, 0x23, 0x45, 0x67, 0x89, 0xAB, 0xCD, 0xEF, 0xFE, 0xDC, 0xBA, 0x98, 0x76, 0x54, 0x32, 0x10]

/-- `KeyExpand(k1)` as R92 prints it. -/
def rk1 : RoundKeys := #v[
  0xF12186F9, 0x41662B61, 0x5A6AB19A, 0x7BA92077,
  0x367360F4, 0x776A0C61, 0xB6BB89B3, 0x24763151,
  0xA520307C, 0xB7584DBD, 0xC30753ED, 0x7EE55B57,
  0x6988608C, 0x30D895B7, 0x44BA14AF, 0x104495A1,
  0xD120B428, 0x73B55FA3, 0xCC874966, 0x92244439,
  0xE89E641F, 0x98CA015A, 0xC7159060, 0x99E1FD2E,
  0xB79BD80C, 0x1D2115B0, 0x0E228AEB, 0xF1780C81,
  0x428D3654, 0x62293496, 0x01CF72E5, 0x9124A012]

/-- The state after reset, as if `CONSTRUCT(k1)` had succeeded. -/
def loaded : State := { State.reset with keyValid := true, rk := rk1 }

/-- A state with some context, whatever it is. -/
def someContext : State := { State.reset with keyValid := true }

/-- The state after reset with events still to come. -/
def withEvents (es : List Event) : State := { State.reset with events := es }

/-- The response a command adds, where it adds one to none. -/
def answer (o : Outcome) : List (List Byte) :=
  match o with
  | .next t => t.responses
  | .fault _ => []
  | .refused _ => []

/-! ## WellFormed: an ill-formed term for each check -/

theorem test_key_of_256_bytes_is_ill_formed : (Instr.construct (List.replicate 256 0)).wellFormed = false := by decide +kernel

theorem test_data_over_the_limit_is_ill_formed : (Instr.pad (List.replicate 17 0)).wellFormedFor 16 = false ∧
    (Instr.pad (List.replicate 16 0)).wellFormedFor 16 = true := by decide

theorem test_key_of_255_bytes_is_well_formed : (Instr.construct (List.replicate 255 0)).wellFormed = true := by decide +kernel

/-! ## Decode: a frame of every command written out from R50 and R53, and the frames of section 7 -/

theorem test_decode_construct : decode [0x01, 0x02, 0x00, 0x00, 0x00, 0x00, 0xA1, 0xA2] = .ok (.construct [0xA1, 0xA2]) := by decide
theorem test_decode_encryptBlock : decode [0x02, 0x00, 0x00, 0x00, 0x00, 0x03, 0xB1, 0xB2, 0xB3] = .ok (.encryptBlock [0xB1, 0xB2, 0xB3]) := by decide
theorem test_decode_decryptBlock : decode [0x03, 0x00, 0x00, 0x00, 0x00, 0x01, 0xC1] = .ok (.decryptBlock [0xC1]) := by decide
theorem test_decode_encryptEcb : decode [0x04, 0x01, 0x00, 0x00, 0x00, 0x02, 0xA1, 0xD1, 0xD2] = .ok (.encryptEcb [0xA1] [0xD1, 0xD2]) := by decide
theorem test_decode_decryptEcb : decode [0x05, 0x02, 0x00, 0x00, 0x00, 0x01, 0xA1, 0xA2, 0xD1] = .ok (.decryptEcb [0xA1, 0xA2] [0xD1]) := by decide
theorem test_decode_encryptEcbCtx : decode [0x06, 0x00, 0x00, 0x00, 0x00, 0x01, 0xE1] = .ok (.encryptEcbCtx [0xE1]) := by decide
theorem test_decode_decryptEcbCtx : decode [0x07, 0x00, 0x00, 0x00, 0x00, 0x01, 0xE2] = .ok (.decryptEcbCtx [0xE2]) := by decide
theorem test_decode_pad : decode [0x08, 0x00, 0x00, 0x00, 0x00, 0x01, 0xAA] = .ok (.pad [0xAA]) := by decide
theorem test_decode_unpad : decode [0x09, 0x00, 0x00, 0x00, 0x00, 0x02, 0x10, 0x10] = .ok (.unpad [0x10, 0x10]) := by decide

/-- G1, G2: fewer than 6 bytes. -/
theorem test_decode_short : decode [] = .error .tooShort ∧ decode [0x01, 0, 0, 0, 0] = .error .tooShort := by decide

/-- G3, G4, G5: reserved opcodes. -/
theorem test_decode_reserved : decode [0x00, 0x00, 0x00, 0x00, 0x00, 0x00] = .error .reservedOpcode ∧
    decode [0x0A, 0x00, 0x00, 0x00, 0x00, 0x00] = .error .reservedOpcode ∧ decode [0xFF, 0x00, 0x00, 0x00, 0x00, 0x00] = .error .reservedOpcode := by decide

/-- G8, G9: one data byte too few, one too many. -/
theorem test_decode_wrong_length : decode [0x08, 0x00, 0x00, 0x00, 0x00, 0x02, 0xAA] = .error .wrongLength ∧
    decode [0x08, 0x00, 0x00, 0x00, 0x00, 0x01, 0xAA, 0xBB] = .error .wrongLength := by decide

/-- G10, G11, G15: a length field the command does not use. -/
theorem test_decode_unused_length : decode [0x08, 0x01, 0x00, 0x00, 0x00, 0x00, 0x00] = .error .unusedLength ∧
    decode [0x01, 0x01, 0x00, 0x00, 0x00, 0x01, 0x00, 0x00] = .error .unusedLength ∧
    decode [0x02, 0x10, 0x00, 0x00, 0x00, 0x00, 0x01, 0x23, 0x45, 0x67, 0x89, 0xAB, 0xCD, 0xEF, 0xFE, 0xDC, 0xBA, 0x98, 0x76, 0x54, 0x32, 0x10] = .error .unusedLength := by decide

/-- G16: `DLEN = 2^32 − 16` is over the default `MAX_BUF_LEN`. -/
theorem test_decode_too_long : decode [0x08, 0x00, 0xFF, 0xFF, 0xFF, 0xF0] = .error .dataTooLong := by decide

/-- G17: the operands of `ENCRYPT_ECB key=k1 data=534D34`. -/
theorem test_decode_g17 : decode [0x04, 0x10, 0x00, 0x00, 0x00, 0x03, 0x01, 0x23, 0x45, 0x67, 0x89, 0xAB, 0xCD, 0xEF, 0xFE, 0xDC, 0xBA, 0x98, 0x76, 0x54, 0x32, 0x10, 0x53, 0x4D, 0x34] =
    .ok (.encryptEcb k1.toList [0x53, 0x4D, 0x34]) := by decide

/-- The worked example of R60. -/
theorem test_encode_construct : encode (.construct k1.toList) = [0x01, 0x10, 0x00, 0x00, 0x00, 0x00, 0x01, 0x23, 0x45, 0x67, 0x89, 0xAB, 0xCD, 0xEF, 0xFE, 0xDC, 0xBA, 0x98, 0x76, 0x54, 0x32, 0x10] := by decide

/-- The opcode table's match values, as its 48-bit header numbers them. -/
theorem test_table_words :
    decodeTableWord 48 0x010000000000 = some (.construct []) ∧ decodeTableWord 48 0x020000000000 = some (.encryptBlock []) ∧
    decodeTableWord 48 0x030000000000 = some (.decryptBlock []) ∧ decodeTableWord 48 0x040000000000 = some (.encryptEcb [] []) ∧
    decodeTableWord 48 0x050000000000 = some (.decryptEcb [] []) ∧ decodeTableWord 48 0x060000000000 = some (.encryptEcbCtx []) ∧
    decodeTableWord 48 0x070000000000 = some (.decryptEcbCtx []) ∧ decodeTableWord 48 0x080000000000 = some (.pad []) ∧
    decodeTableWord 48 0x090000000000 = some (.unpad []) ∧ decodeTableWord 48 0x000000000000 = none := by decide

/-- An opcode-table word with operand lengths carries that many zero bytes. -/
theorem test_table_word_operands :
    decodeTableWord 48 0x040200000003 = some (.encryptEcb [0, 0] [0, 0, 0]) := by decide

/-- G6: the word of `PAD` runs as the first command after reset. -/
theorem test_fetch_word_runs : answer (step (State.reset.withFetchWord 48 0x080000000000)) =
    [[0x00, 0x00, 0x00, 0x00, 0x10, 0x10, 0x10, 0x10, 0x10, 0x10, 0x10, 0x10, 0x10, 0x10, 0x10, 0x10, 0x10, 0x10, 0x10, 0x10, 0x10]] := by decide

/-! ## The datapath and the tables -/

/-- Section 2, A1. -/
theorem test_rotl : rotl 0x01234567 13 = 0x68ACE024 ∧ rotl 0x80000000 1 = 0x00000001 ∧ rotl 0xDEADBEEF 10 = 0xB6FBBF7A ∧
    rotl 0x12345678 24 = 0x78123456 := by decide

/-- Section 2, A2. -/
theorem test_combinators : tau 0x8283CB69 = 0x8AD24122 ∧ diffL 0x18E992B1 = 0x26D99622 ∧ diffLp 0x8AD24122 = 0x53B37958 ∧
    combT 0xF002C39E = 0x26D99622 ∧ combTp 0x8283CB69 = 0x53B37958 ∧ combT 0 = 0x5B5B5B5B ∧ combTp 0 = 0x67676767 := by decide

/-- Section 2, A4, rows 1 and 2. -/
theorem test_rounds : roundF ⟨0x01234567, 0x89ABCDEF, 0xFEDCBA98, 0x76543210⟩ 0xF12186F9 = 0x27FAD345 ∧
    roundFp ⟨0xA292FFA1, 0xDF01FEBF, 0x99A12B0F, 0xC42410CC⟩ 0x00070E15 = 0xF12186F9 := by decide

/-- R72: the checks on the table: every byte occurs, the sum is 32640, the only zero and the only fixed point. -/
theorem test_sbox : (∀ y : Fin 256, ∃ x : Fin 256, sbox (BitVec.ofFin x) = BitVec.ofFin y) ∧ sbox 0x00 = 0xD6 ∧ sbox 0x01 = 0x90 ∧
    sbox 0xFF = 0x48 ∧ (∀ x : Fin 256, sbox (BitVec.ofFin x) = 0 ↔ x = 0x71) ∧
    (∀ x : Fin 256, sbox (BitVec.ofFin x) = BitVec.ofFin x ↔ x = 0xAB) := by decide +kernel

/-- R74: the closed form of `CK`. -/
theorem test_ck : ∀ i : Fin 32, unbe32 ck[i] = [BitVec.ofNat 8 (28 * i), BitVec.ofNat 8 (28 * i + 7), BitVec.ofNat 8 (28 * i + 14),
    BitVec.ofNat 8 (28 * i + 21)] := by decide +kernel

/-- R92: all 32 round keys of `k1`. -/
theorem test_key_expand : keyExpand k1 = rk1 := by decide +kernel

/-! ## The commands, at most two each -/

/-- K5: `CONSTRUCT key=k1` from no context. -/
theorem test_construct : ∃ t, exec (.construct k1.toList) State.reset = .next t ∧ t.keyValid = true ∧ t.rk = rk1 ∧
    t.responses = [[0, 0, 0, 0, 0]] := by
  refine ⟨_, exec_eq _ _, ?_⟩
  simp [loadedBy, responseOf, test_key_expand, State.reset, Response.encode_ok]
  decide

/-- K5: a 15-byte key, from a context: nothing is written. -/
theorem test_construct_short_key : exec (.construct [0x01, 0x23, 0x45, 0x67, 0x89, 0xAB, 0xCD, 0xEF, 0xFE, 0xDC, 0xBA, 0x98, 0x76, 0x54, 0x32]) loaded =
    .next { loaded with responses := [[0x01, 0, 0, 0, 0]] } := by
  simp [exec, execConstruct, toBlock, raise_eq, State.respond_fail]; rfl

/-- V1. -/
theorem test_encrypt_block : answer (exec (.encryptBlock k1.toList) loaded) =
    [[0x00, 0x00, 0x00, 0x00, 0x10, 0x68, 0x1E, 0xDF, 0x34, 0xD2, 0x06, 0x96, 0x5E, 0x86, 0xB3, 0xE9, 0x4F, 0x53, 0x6E, 0x42, 0x46]] := by decide +kernel

/-- F8: before any `CONSTRUCT`, `NoKeyError` comes before `BlockLengthError`. -/
theorem test_encrypt_block_no_key : answer (exec (.encryptBlock (List.replicate 15 0)) State.reset) = [[0x05, 0, 0, 0, 0]] := by decide

/-- B3. -/
theorem test_decrypt_block : answer (exec (.decryptBlock [0x68, 0x1E, 0xDF, 0x34, 0xD2, 0x06, 0x96, 0x5E, 0x86, 0xB3, 0xE9, 0x4F, 0x53, 0x6E, 0x42, 0x46]) loaded) =
    [[0, 0, 0, 0, 16] ++ k1.toList] := by decide +kernel

/-- B5: 17 bytes under a context. -/
theorem test_decrypt_block_long : answer (exec (.decryptBlock (List.replicate 17 0)) loaded) = [[0x02, 0, 0, 0, 0]] := by decide

/-- G17: `ENCRYPT_ECB key=k1 data=534D34`, from no context. -/
theorem test_encrypt_ecb : answer (exec (.encryptEcb k1.toList [0x53, 0x4D, 0x34]) State.reset) =
    [[0x00, 0x00, 0x00, 0x00, 0x10, 0xFB, 0xF6, 0xBB, 0x17, 0x01, 0x73, 0x12, 0x13, 0x25, 0x67, 0x7F, 0x4C, 0x96, 0xDA, 0x08, 0xE8]] := by decide +kernel

/-- F7: the empty key. -/
theorem test_encrypt_ecb_no_key : answer (exec (.encryptEcb [] []) State.reset) = [[0x01, 0, 0, 0, 0]] := by decide

/-- F1, F3, F4, F5: the order of checks. -/
theorem test_decrypt_ecb_order :
    answer (exec (.decryptEcb [0x01, 0x23, 0x45, 0x67, 0x89, 0xAB, 0xCD, 0xEF, 0xFE, 0xDC, 0xBA, 0x98, 0x76, 0x54, 0x32] (List.replicate 17 0)) State.reset) = [[0x03, 0, 0, 0, 0]] ∧
    answer (exec (.decryptEcb [0x01, 0x23, 0x45, 0x67, 0x89, 0xAB, 0xCD, 0xEF, 0xFE, 0xDC, 0xBA, 0x98, 0x76, 0x54, 0x32] (List.replicate 16 0)) State.reset) = [[0x01, 0, 0, 0, 0]] ∧
    answer (exec (.decryptEcb [0x01, 0x23, 0x45, 0x67, 0x89, 0xAB, 0xCD, 0xEF, 0xFE, 0xDC, 0xBA, 0x98, 0x76, 0x54, 0x32] []) State.reset) = [[0x01, 0, 0, 0, 0]] ∧
    answer (exec (.decryptEcb k1.toList []) State.reset) = [[0x03, 0, 0, 0, 0]] := by decide +kernel

/-- Script 2, command 3: `DECRYPT_ECB` with the right key. -/
theorem test_decrypt_ecb : answer (exec (.decryptEcb k1.toList [0xFB, 0xF6, 0xBB, 0x17, 0x01, 0x73, 0x12, 0x13, 0x25, 0x67, 0x7F, 0x4C, 0x96, 0xDA, 0x08, 0xE8]) State.reset) =
    [[0x00, 0x00, 0x00, 0x00, 0x03, 0x53, 0x4D, 0x34]] := by decide +kernel

/-- Script 4, command 2: two blocks. -/
theorem test_encrypt_ecb_ctx : answer (exec (.encryptEcbCtx [0x00, 0x01, 0x02, 0x03, 0x04, 0x05, 0x06, 0x07, 0x08, 0x09, 0x0A, 0x0B, 0x0C, 0x0D, 0x0E, 0x0F, 0x10]) loaded) =
    [[0x00, 0x00, 0x00, 0x00, 0x20, 0x06, 0x98, 0x9C, 0x61, 0x3D, 0xA6, 0x68, 0xAD, 0x2A, 0x8D, 0xF7, 0x82, 0xE1, 0xA8, 0xF9, 0x6A, 0x72, 0xE7, 0x7B, 0x6E, 0xEC, 0x45, 0xD6, 0x9A, 0x56, 0xC6, 0xDD, 0x61, 0x2A, 0xD5, 0x46, 0xB4]] := by decide +kernel

/-- F13. -/
theorem test_encrypt_ecb_ctx_no_key : answer (exec (.encryptEcbCtx [0x53, 0x4D, 0x34]) State.reset) = [[0x05, 0, 0, 0, 0]] := by decide

/-- E18 on the context form: the decryption of `E_k1(sixteen bytes 10)` is the empty plaintext. -/
theorem test_decrypt_ecb_ctx : ecbDecrypt [0x00, 0x2A, 0x8A, 0x4E, 0xFA, 0x86, 0x3C, 0xCA, 0xD0, 0x24, 0xAC, 0x03, 0x00, 0xBB, 0x40, 0xD2] rk1 = .ok [] := by decide +kernel

/-- E14 on the context form: a bare block without padding. -/
theorem test_decrypt_ecb_ctx_bare : ecbDecrypt [0x68, 0x1E, 0xDF, 0x34, 0xD2, 0x06, 0x96, 0x5E, 0x86, 0xB3, 0xE9, 0x4F, 0x53, 0x6E, 0x42, 0x46] rk1 =
    .error .corruptedPadding := by decide +kernel

/-- E16: damage in the first of two blocks is not detected. -/
theorem test_decrypt_damaged : ecbDecrypt [0x86, 0x98, 0x9C, 0x61, 0x3D, 0xA6, 0x68, 0xAD, 0x2A, 0x8D, 0xF7, 0x82, 0xE1, 0xA8, 0xF9, 0x6A, 0x72, 0xE7, 0x7B, 0x6E, 0xEC, 0x45, 0xD6, 0x9A, 0x56, 0xC6, 0xDD, 0x61, 0x2A, 0xD5, 0x46, 0xB4] rk1 =
    .ok [0x3D, 0xE4, 0xF6, 0x2A, 0xFE, 0xB9, 0x62, 0xE4, 0x4A, 0xF3, 0xB6, 0x51, 0xD5, 0x9E, 0xFC, 0x9F, 0x10] := by decide +kernel

/-- D1: 17 bytes. -/
theorem test_pad : answer (exec (.pad [0x00, 0x01, 0x02, 0x03, 0x04, 0x05, 0x06, 0x07, 0x08, 0x09, 0x0A, 0x0B, 0x0C, 0x0D, 0x0E, 0x0F, 0x10]) State.reset) =
    [[0x00, 0x00, 0x00, 0x00, 0x20, 0x00, 0x01, 0x02, 0x03, 0x04, 0x05, 0x06, 0x07, 0x08, 0x09, 0x0A, 0x0B, 0x0C, 0x0D, 0x0E, 0x0F, 0x10, 0x0F, 0x0F, 0x0F, 0x0F, 0x0F, 0x0F, 0x0F, 0x0F, 0x0F, 0x0F, 0x0F, 0x0F, 0x0F, 0x0F, 0x0F]] := by decide

/-- D1: an aligned input gets a whole block. -/
theorem test_pad_aligned : pad Config.padBs (List.replicate 16 0x10) = List.replicate 32 0x10 := by decide

/-- D2: rows of every check. -/
theorem test_unpad_failures : unpad Config.padBs [] = .error .misaligned ∧ unpad Config.padBs (List.replicate 17 0) = .error .misaligned ∧
    unpad Config.padBs (List.replicate 16 0) = .error .invalidPaddingValue ∧
    unpad Config.padBs [0x00, 0x00, 0x00, 0x00, 0x00, 0x00, 0x00, 0x00, 0x00, 0x00, 0x00, 0x00, 0x00, 0x00, 0x00, 0x11] = .error .invalidPaddingValue ∧
    unpad Config.padBs [0x00, 0x00, 0x00, 0x00, 0x00, 0x00, 0x00, 0x00, 0x00, 0x00, 0x00, 0x00, 0x00, 0x00, 0x03, 0x02] = .error .corruptedPadding ∧
    unpad Config.padBs [0x00, 0x10, 0x10, 0x10, 0x10, 0x10, 0x10, 0x10, 0x10, 0x10, 0x10, 0x10, 0x10, 0x10, 0x10, 0x10] = .error .corruptedPadding := by decide

/-- G19, and D2's row ending 03 03 03. -/
theorem test_unpad : answer (exec (.unpad (List.replicate 16 0x10)) State.reset) = [[0, 0, 0, 0, 0]] ∧
    unpad Config.padBs [0x00, 0x00, 0x00, 0x00, 0x00, 0x00, 0x00, 0x00, 0x00, 0x00, 0x00, 0x00, 0x00, 0x03, 0x03, 0x03] = .ok (List.replicate 13 0) := by decide

/-- The general function with other block sizes (D1, last lines). -/
theorem test_pad_other_sizes : pad ⟨8, by decide, by decide⟩ [1, 2, 3, 4, 5] = [1, 2, 3, 4, 5, 3, 3, 3] ∧
    pad ⟨1, by decide, by decide⟩ [0xAA] = [0xAA, 0x01] := by decide

/-- R180: a Reset event; the response already sent stays, the frame still to come stays. -/
theorem test_reset_event : ∃ t, step { loaded with events := [.reset, .frame []], responses := [[0, 0, 0, 0, 0]] } = .next t ∧
    t.keyValid = false ∧ t.events = [.frame []] ∧ t.responses = [[0, 0, 0, 0, 0]] := ⟨_, rfl, rfl, rfl, rfl⟩

/-- G1: an illegal frame. -/
theorem test_illegal_frame : answer (step { loaded with events := [.frame []] }) = [[0x06, 0, 0, 0, 0]] := by decide

/-! ## Witnesses: a state and operands that meet the hypotheses of each statement -/

/-- DecodeEncodeRoundTrip, at both ends of the range of `MAX_BUF_LEN`, with the longest key and, for the smaller, the longest data. -/
theorem witness_DecodeEncodeRoundTrip :
    (16 ≤ 16 ∧ 16 ≤ 4294967279 ∧ (Instr.encryptEcb (List.replicate 255 7) (List.replicate 16 9)).key.length ≤ 255 ∧
      (Instr.encryptEcb (List.replicate 255 7) (List.replicate 16 9)).data.length ≤ 16) ∧
    (4294967279 ≤ 4294967279 ∧ (Instr.pad []).data.length ≤ 4294967279) := by decide +kernel

/-- EncodeDecodeRoundTrip, ResultsFitRlen (second clause), StepRunsDecodedCommand, StepMatchesReference. -/
theorem witness_decoding_frame : decodeWith 16 [0x08, 0, 0, 0, 0, 1, 0xAA] = .ok (.pad [0xAA]) ∧
    decode [0x08, 0, 0, 0, 0, 1, 0xAA] = .ok (.pad [0xAA]) ∧
    (withEvents [.frame [0x08, 0, 0, 0, 0, 1, 0xAA]]).events = .frame [0x08, 0, 0, 0, 0, 1, 0xAA] :: [] := by decide

/-- IllegalFramesExactly: each case (a) to (e) at a boundary, and a frame in none; the hypotheses of its second clause. -/
theorem witness_IllegalFramesExactly :
    decodeWith 16 [0x08, 0, 0, 0, 0] = .error .tooShort ∧ decodeWith 16 [0x00, 0, 0, 0, 0, 0] = .error .reservedOpcode ∧
    decodeWith 16 [0x0A, 0, 0, 0, 0, 0] = .error .reservedOpcode ∧
    decodeWith 16 ([0x08, 0, 0, 0, 0, 17] ++ List.replicate 17 0) = .error .dataTooLong ∧
    decodeWith 16 ([0x08, 0, 0, 0, 0, 16] ++ List.replicate 16 0) = .ok (.pad (List.replicate 16 0)) ∧
    decodeWith 16 [0x08, 0, 0, 0, 0, 0, 0] = .error .wrongLength ∧
    decodeWith 16 [0x01, 0, 0, 0, 0, 1, 0] = .error .unusedLength ∧
    decodeWith 16 [0x09, 1, 0, 0, 0, 0, 0] = .error .unusedLength ∧
    ((withEvents [.frame []]).events = .frame [] :: [] ∧ decode [] = .error .tooShort) := by decide

/-- ResultsFitRlen, first clause, just above the limit; third clause, the longest buffer of one block and the empty one. -/
theorem witness_ResultsFitRlen : (someContext.keyValid = true ∧ (List.replicate 16 (0 : Byte)).length % 16 = 0 ∧
    ([] : List Byte).length % 16 = 0) ∧ 6 ≤ [0x08, 0, 0xFF, 0xFF, 0xFF, (0xF0 : Byte)].length ∧
    4294967279 < (Reference.be32 (Reference.memRead [0x08, 0, 0xFF, 0xFF, 0xFF, 0xF0] 2 4)).toNat := by decide

/-- CommandFrame, CommandsArePure: a command that is no `CONSTRUCT`, and a `CONSTRUCT` with a key one byte short. -/
theorem witness_CommandFrame : (∃ t, exec (.pad []) State.reset = .next t) ∧
    (∃ t, exec (.construct (List.replicate 15 0)) State.reset = .next t) ∧
    (∀ key, Instr.pad [] = .construct key → key.length ≠ 16) ∧ (∀ key, Instr.pad [] ≠ .construct key) :=
  ⟨⟨_, rfl⟩, ⟨_, rfl⟩, by simp, by simp⟩

/-- FailureLeavesState: a failure, and a loaded context. -/
theorem witness_FailureLeavesState : someContext.keyValid = true ∧ ∃ t, exec (.unpad []) State.reset = .next t ∧
    t.responses = State.reset.responses ++ [[0x03, 0, 0, 0, 0]] ∧ ([0x03, 0, 0, 0, 0] : List Byte).head? ≠ some 0 :=
  ⟨rfl, _, rfl, by decide, by decide⟩

/-- KeyValidFlag: each clause. -/
theorem witness_KeyValidFlag : k1.toList.length = 16 ∧ (∃ t, exec (.pad []) someContext = .next t) ∧ someContext.keyValid = true ∧
    State.reset.keyValid = false ∧
    Instr.decryptEcbCtx [] ∈ [Instr.encryptBlock [], .decryptBlock [], .encryptEcbCtx [], .decryptEcbCtx []] :=
  ⟨rfl, ⟨_, rfl⟩, rfl, rfl, by decide⟩

/-- NoKeyErrorExactly: both sides of the equivalence occur, and both fail. -/
theorem witness_NoKeyErrorExactly :
    answer (exec (.decryptEcbCtx [0]) State.reset) = State.reset.responses ++ [[0x05, 0, 0, 0, 0]] ∧
    answer (exec (.decryptEcbCtx [0]) someContext) = [[0x03, 0, 0, 0, 0]] ∧
    answer (exec (.decryptEcb [] [0]) State.reset) = [[0x03, 0, 0, 0, 0]] := by decide

/-- ContextChangesOnlyByConstructOrReset: each of its three ends. -/
theorem witness_ContextChanges : (∃ t, step (withEvents [.frame []]) = .next t) ∧ (∃ t, step (withEvents [.reset]) = .next t) ∧
    (∃ t, step (withEvents [.frame (encode (.construct k1.toList))]) = .next t) ∧
    decode (encode (.construct k1.toList)) = .ok (.construct k1.toList) :=
  ⟨⟨_, rfl⟩, ⟨_, rfl⟩, ⟨_, step_frame rfl (by decide : decode (encode (.construct k1.toList)) = .ok (.construct k1.toList))⟩,
    by decide⟩

/-- ContextComesFromConstructOnly: a Reset event to come, and a step that loads a context from none. -/
theorem witness_ContextComesFromConstruct : (withEvents [.reset]).events = .reset :: [] ∧
    ∃ t, (withEvents [.frame (encode (.construct k1.toList))]).keyValid = false ∧
      step (withEvents [.frame (encode (.construct k1.toList))]) = .next t ∧ t.keyValid = true :=
  ⟨rfl, _, rfl, step_frame rfl (by decide : decode (encode (.construct k1.toList)) = .ok (.construct k1.toList)), rfl⟩

/-- ResetEventAndIdle, UnloadedKeysInvisible. -/
theorem witness_ResetEventAndIdle : (withEvents [.reset]).events = .reset :: [] ∧ (withEvents []).events = [] ∧
    State.reset.keyValid = false := by decide

/-- StepKeepsContextFromKey: a loaded context that comes from a key, and a step from it. -/
theorem witness_StepKeepsContextFromKey : loaded.ContextFromKey ∧ loaded.keyValid = true ∧ ∃ t, step loaded = .next t :=
  ⟨fun _ => ⟨k1, test_key_expand.symm⟩, rfl, _, rfl⟩

/-- StepKeepsResponsesWellFormed: a state that has sent a response, and a step from it that sends another. -/
theorem witness_StepKeepsResponsesWellFormed :
    State.ResponsesWellFormed { State.reset with responses := [[0, 0, 0, 0, 0]], events := [.frame []] } ∧
    ∃ t, step { State.reset with responses := [[0, 0, 0, 0, 0]], events := [.frame []] } = .next t := by
  refine ⟨?_, _, rfl⟩
  intro f hf
  simp only [List.mem_singleton] at hf
  exact ⟨0, 0, 0, 0, 0, [], hf, by decide, by decide, by decide⟩

/-- RunAnswersEveryFrame: events before a frame and after it. -/
theorem witness_RunAnswersEveryFrame :
    (withEvents [.reset, .frame [], .reset]).events = [.reset] ++ .frame [] :: [.reset] := rfl

/-- ConstructReplacesContext, its runs: two states with the same events, which hold neither a reset nor a `CONSTRUCT` that succeeds, but
one that fails. -/
theorem witness_ConstructReplacesContext_run :
    (withEvents [.frame [], .frame [0x01, 0, 0, 0, 0, 0]]).events = { someContext with events := [.frame [], .frame [0x01, 0, 0, 0, 0, 0]] }.events ∧
    ∀ e ∈ (withEvents [.frame [], .frame [0x01, 0, 0, 0, 0, 0]]).events, e ≠ .reset ∧
      ∀ f key, e = .frame f → decode f = .ok (.construct key) → key.length ≠ 16 := by
  refine ⟨rfl, fun e he => ?_⟩
  have hd : decode [0x01, 0, 0, 0, 0, 0] = .ok (.construct []) := by decide
  simp only [withEvents, List.mem_cons, List.not_mem_nil, or_false] at he
  rcases he with rfl | rfl
  · refine ⟨by simp, fun f key hf hk => ?_⟩
    cases hf; cases hk
  · refine ⟨by simp, fun f key hf hk => ?_⟩
    cases hf; rw [hd] at hk; cases hk; decide

/-- ConstructReplacesContext, its first clause and its last, have no hypotheses; what the first speaks of, from a context and from none. -/
theorem witness_ConstructReplacesContext : (∃ t, exec (.construct k1.toList) State.reset = .next t) ∧
    ∃ t, exec (.construct k1.toList) someContext = .next t := ⟨⟨_, exec_eq _ _⟩, _, exec_eq _ _⟩

/-- The key, block and data lengths of the nine commands' statements, one byte to either side of what is accepted; the flag both ways. -/
theorem witness_command_lengths : ([] : List Byte).length ≠ 16 ∧ (List.replicate 15 (0 : Byte)).length ≠ 16 ∧
    (List.replicate 17 (0 : Byte)).length ≠ 16 ∧ (List.replicate 255 (0 : Byte)).length ≠ 16 ∧
    (List.replicate 15 (0 : Byte)).length % 16 ≠ 0 ∧ (List.replicate 17 (0 : Byte)).length % 16 ≠ 0 ∧
    ([] : List Byte).length % 16 = 0 ∧ someContext.keyValid = true ∧ State.reset.keyValid = false := by decide +kernel

/-- DecryptBlockResult: the reversed view of a context. -/
theorem witness_DecryptBlockResult : loaded.keyValid = true ∧
    ∀ (i : Nat) (_ : i < 32), (reversedKeys loaded.rk)[i] = loaded.rk[31 - i] := by
  refine ⟨rfl, fun i hi => ?_⟩
  interval_cases i <;> rfl

/-- Valid padding is what the decoder accepts, for a whole number of blocks. -/
theorem paddedAs_iff {data plain : List Byte} (h : data.length % 16 = 0) :
    PaddedAs data plain ↔ unpad Config.padBs data = .ok plain := by
  rw [unpad_eq_ok]
  constructor
  · rintro ⟨n, h1, h2, h3⟩; exact ⟨n, h1, h2, h, h3⟩
  · rintro ⟨n, h1, h2, -, h3⟩; exact ⟨n, h1, h2, h3⟩

/-- DecryptEcbResult and DecryptEcbCtxResult, the clause of success, at the shortest plaintext (E18). -/
theorem witness_decrypt_succeeds :
    ([0x00, 0x2A, 0x8A, 0x4E, 0xFA, 0x86, 0x3C, 0xCA, 0xD0, 0x24, 0xAC, 0x03, 0x00, 0xBB, 0x40, 0xD2] : List Byte).length % 16 = 0 ∧ loaded.keyValid = true ∧
    PaddedAs (ecbApply [0x00, 0x2A, 0x8A, 0x4E, 0xFA, 0x86, 0x3C, 0xCA, 0xD0, 0x24, 0xAC, 0x03, 0x00, 0xBB, 0x40, 0xD2] (reversedKeys (keyExpand k1))) [] ∧
    PaddedAs (ecbApply [0x00, 0x2A, 0x8A, 0x4E, 0xFA, 0x86, 0x3C, 0xCA, 0xD0, 0x24, 0xAC, 0x03, 0x00, 0xBB, 0x40, 0xD2] (reversedKeys loaded.rk)) [] := by
  have h : PaddedAs (ecbApply [0x00, 0x2A, 0x8A, 0x4E, 0xFA, 0x86, 0x3C, 0xCA, 0xD0, 0x24, 0xAC, 0x03, 0x00, 0xBB, 0x40, 0xD2] (reversedKeys rk1)) [] :=
    (paddedAs_iff (by rw [ecbApply_length_eq]; rfl)).2 test_decrypt_ecb_ctx
  exact ⟨rfl, rfl, by rw [test_key_expand]; exact h, h⟩

/-- DecryptEcbResult and DecryptEcbCtxResult, the clause of bad padding (E14). -/
theorem witness_decrypt_bad_padding :
    ([0x68, 0x1E, 0xDF, 0x34, 0xD2, 0x06, 0x96, 0x5E, 0x86, 0xB3, 0xE9, 0x4F, 0x53, 0x6E, 0x42, 0x46] : List Byte).length % 16 = 0 ∧ ([0x68, 0x1E, 0xDF, 0x34, 0xD2, 0x06, 0x96, 0x5E, 0x86, 0xB3, 0xE9, 0x4F, 0x53, 0x6E, 0x42, 0x46] : List Byte) ≠ [] ∧
    (¬ ∃ plain, PaddedAs (ecbApply [0x68, 0x1E, 0xDF, 0x34, 0xD2, 0x06, 0x96, 0x5E, 0x86, 0xB3, 0xE9, 0x4F, 0x53, 0x6E, 0x42, 0x46] (reversedKeys (keyExpand k1))) plain) ∧
    ¬ ∃ plain, PaddedAs (ecbApply [0x68, 0x1E, 0xDF, 0x34, 0xD2, 0x06, 0x96, 0x5E, 0x86, 0xB3, 0xE9, 0x4F, 0x53, 0x6E, 0x42, 0x46] (reversedKeys loaded.rk)) plain := by
  have h : ¬ ∃ plain, PaddedAs (ecbApply [0x68, 0x1E, 0xDF, 0x34, 0xD2, 0x06, 0x96, 0x5E, 0x86, 0xB3, 0xE9, 0x4F, 0x53, 0x6E, 0x42, 0x46] (reversedKeys rk1)) plain := by
    rintro ⟨plain, hp⟩
    have hu := (paddedAs_iff (by rw [ecbApply_length_eq]; rfl)).1 hp
    have hb := test_decrypt_ecb_ctx_bare
    unfold ecbDecrypt at hb
    rw [hu] at hb
    cases hb
  exact ⟨rfl, by simp, by rw [test_key_expand]; exact h, h⟩

/-- UnpadResult: the longest and the shortest padding, and a block without any. -/
theorem witness_UnpadResult : PaddedAs (List.replicate 16 0x10) [] ∧ PaddedAs (List.replicate 15 0 ++ [1]) (List.replicate 15 0) ∧
    (List.replicate 16 (0 : Byte) ≠ [] ∧ (List.replicate 16 (0 : Byte)).length % 16 = 0 ∧
      ¬ ∃ plain, PaddedAs (List.replicate 16 0) plain) := by
  refine ⟨⟨16, by decide, by decide, rfl⟩, ⟨1, by decide, by decide, rfl⟩, by decide, rfl, ?_⟩
  rintro ⟨plain, hp⟩
  have hu := (paddedAs_iff rfl).1 hp
  rw [test_unpad_failures.2.2.1] at hu
  cases hu

/-- KeylessCommandsIgnoreContext, EcbFormsAgree. -/
theorem witness_EcbFormsAgree : loaded.keyValid = true ∧ loaded.rk = keyExpand k1 ∧
    Instr.pad [] ∈ [Instr.encryptEcb [] [], .decryptEcb [] [], .pad [], .unpad []] := ⟨rfl, test_key_expand.symm, by decide⟩

/-- PadLengths: a multiple of the block size above the data's length, the smallest. -/
theorem witness_PadLengths : Config.padBs.size ∣ 16 ∧ (List.replicate 15 (0 : Byte)).length < 16 := by decide

/-- UnpadChecksInOrder: each clause, at the ends of its range. -/
theorem witness_UnpadChecksInOrder :
    (([] : List Byte).length = 0 ∧ (List.replicate 17 (0 : Byte)).length % Config.padBs.size ≠ 0) ∧
    ((List.replicate 16 (0 : Byte)).length ≠ 0 ∧ (List.replicate 16 (0 : Byte)).length % Config.padBs.size = 0 ∧
      (Reference.byteAt (List.replicate 16 0) 15).toNat < 1) ∧
    (Config.padBs.size < (Reference.byteAt (List.replicate 16 0x11) 15).toNat) ∧
    (∃ i, 14 ≤ i ∧ i < 16 ∧ (Reference.byteAt (List.replicate 14 0 ++ [3, 2]) i).toNat ≠ 2) ∧
    (∀ i, 0 ≤ i → i < 16 → (Reference.byteAt (List.replicate 16 0x10) i).toNat = 16) := by
  refine ⟨by decide, by decide, by decide, ⟨14, by decide, by decide, by decide⟩, ?_⟩
  intro i _ hi
  interval_cases i <;> rfl

/-- PaddingReversible. -/
theorem witness_PaddingReversible : unpad Config.padBs (List.replicate 15 0 ++ [1]) = .ok (List.replicate 15 0) := by decide

/-- EcbAppliesBlockwise, EcbPadBlock: the last of the blocks of a buffer. -/
theorem witness_EcbAppliesBlockwise : (List.replicate 32 (0 : Byte)).length % 16 = 0 ∧ 1 < (List.replicate 32 (0 : Byte)).length / 16 ∧
    (Vector.replicate 16 (0 : Byte)).toList = Reference.memRead (List.replicate 32 0) (16 * 1) 16 := by decide

/-- EcbKeepsBlockEquality: the last whole block of one buffer and the first of another. -/
theorem witness_EcbKeepsBlockEquality : 16 * 1 + 16 ≤ (List.replicate 32 (0 : Byte)).length ∧
    16 * 0 + 16 ≤ (List.replicate 17 (0 : Byte)).length ∧
    Reference.memRead (List.replicate 32 (0 : Byte)) (16 * 1) 16 = Reference.memRead (List.replicate 17 0) (16 * 0) 16 := by decide

/-- EcbEarlierDamageUndetected, the clauses about the commands, at the shortest plaintext (E18). -/
theorem witness_EcbDecryptCommands :
    ([0x00, 0x2A, 0x8A, 0x4E, 0xFA, 0x86, 0x3C, 0xCA, 0xD0, 0x24, 0xAC, 0x03, 0x00, 0xBB, 0x40, 0xD2] : List Byte).length % 16 = 0 ∧
    ecbDecrypt [0x00, 0x2A, 0x8A, 0x4E, 0xFA, 0x86, 0x3C, 0xCA, 0xD0, 0x24, 0xAC, 0x03, 0x00, 0xBB, 0x40, 0xD2] (keyExpand k1) = .ok [] ∧
    loaded.keyValid = true ∧
    ecbDecrypt [0x00, 0x2A, 0x8A, 0x4E, 0xFA, 0x86, 0x3C, 0xCA, 0xD0, 0x24, 0xAC, 0x03, 0x00, 0xBB, 0x40, 0xD2] loaded.rk = .ok [] :=
  ⟨rfl, by rw [test_key_expand]; exact test_decrypt_ecb_ctx, rfl, test_decrypt_ecb_ctx⟩

/-- EcbEarlierDamageUndetected, the clause about the last block: one block and two. -/
theorem witness_EcbLastBlock :
    (Vector.replicate 16 (0 : Byte)).toList = (List.replicate 16 (0 : Byte)).drop ((List.replicate 16 (0 : Byte)).length - 16) ∧
    (Vector.replicate 16 (1 : Byte)).toList =
      (List.replicate 16 (0 : Byte) ++ List.replicate 16 1).drop ((List.replicate 16 (0 : Byte) ++ List.replicate 16 1).length - 16) := by
  decide

/-- EcbEarlierDamageUndetected, the clause about earlier damage: E16 and E6, which differ in their first byte. -/
theorem witness_EcbEarlierDamageUndetected :
    ([0x86, 0x98, 0x9C, 0x61, 0x3D, 0xA6, 0x68, 0xAD, 0x2A, 0x8D, 0xF7, 0x82, 0xE1, 0xA8, 0xF9, 0x6A, 0x72, 0xE7, 0x7B, 0x6E, 0xEC, 0x45, 0xD6, 0x9A, 0x56, 0xC6, 0xDD, 0x61, 0x2A, 0xD5, 0x46, 0xB4] : List Byte).length = ([0x06, 0x98, 0x9C, 0x61, 0x3D, 0xA6, 0x68, 0xAD, 0x2A, 0x8D, 0xF7, 0x82, 0xE1, 0xA8, 0xF9, 0x6A, 0x72, 0xE7, 0x7B, 0x6E, 0xEC, 0x45, 0xD6, 0x9A, 0x56, 0xC6, 0xDD, 0x61, 0x2A, 0xD5, 0x46, 0xB4] : List Byte).length ∧
    ([0x86, 0x98, 0x9C, 0x61, 0x3D, 0xA6, 0x68, 0xAD, 0x2A, 0x8D, 0xF7, 0x82, 0xE1, 0xA8, 0xF9, 0x6A, 0x72, 0xE7, 0x7B, 0x6E, 0xEC, 0x45, 0xD6, 0x9A, 0x56, 0xC6, 0xDD, 0x61, 0x2A, 0xD5, 0x46, 0xB4] : List Byte).length % 16 = 0 ∧ 16 ≤ ([0x86, 0x98, 0x9C, 0x61, 0x3D, 0xA6, 0x68, 0xAD, 0x2A, 0x8D, 0xF7, 0x82, 0xE1, 0xA8, 0xF9, 0x6A, 0x72, 0xE7, 0x7B, 0x6E, 0xEC, 0x45, 0xD6, 0x9A, 0x56, 0xC6, 0xDD, 0x61, 0x2A, 0xD5, 0x46, 0xB4] : List Byte).length ∧
    ([0x86, 0x98, 0x9C, 0x61, 0x3D, 0xA6, 0x68, 0xAD, 0x2A, 0x8D, 0xF7, 0x82, 0xE1, 0xA8, 0xF9, 0x6A, 0x72, 0xE7, 0x7B, 0x6E, 0xEC, 0x45, 0xD6, 0x9A, 0x56, 0xC6, 0xDD, 0x61, 0x2A, 0xD5, 0x46, 0xB4] : List Byte).drop 16 = ([0x06, 0x98, 0x9C, 0x61, 0x3D, 0xA6, 0x68, 0xAD, 0x2A, 0x8D, 0xF7, 0x82, 0xE1, 0xA8, 0xF9, 0x6A, 0x72, 0xE7, 0x7B, 0x6E, 0xEC, 0x45, 0xD6, 0x9A, 0x56, 0xC6, 0xDD, 0x61, 0x2A, 0xD5, 0x46, 0xB4] : List Byte).drop 16 ∧
    ecbDecrypt [0x86, 0x98, 0x9C, 0x61, 0x3D, 0xA6, 0x68, 0xAD, 0x2A, 0x8D, 0xF7, 0x82, 0xE1, 0xA8, 0xF9, 0x6A, 0x72, 0xE7, 0x7B, 0x6E, 0xEC, 0x45, 0xD6, 0x9A, 0x56, 0xC6, 0xDD, 0x61, 0x2A, 0xD5, 0x46, 0xB4] rk1 = .ok [0x3D, 0xE4, 0xF6, 0x2A, 0xFE, 0xB9, 0x62, 0xE4, 0x4A, 0xF3, 0xB6, 0x51, 0xD5, 0x9E, 0xFC, 0x9F, 0x10] :=
  ⟨rfl, rfl, by decide, rfl, test_decrypt_damaged⟩

/-- RotationMovesBits: the top bit, at the largest amount. -/
theorem witness_RotationMovesBits : 31 ≤ 31 ∧ 31 < 32 ∧ (1 : Nat) ≤ 31 := by decide

/-- ReversedKeysView, KeyScheduleRecurrence, CryptRecurrence, TableContents: the first and the last index; ResponseFrameFormat: a result that fits, and two
responses with one frame; EcbPadBlock and EcbRoundTrip, BlockCommandsArePermutations: whole blocks, a context. -/
theorem witness_ranges : (0 < 32 ∧ 31 < 32) ∧ (Response.ok [0xAA]).rdata.length < 4294967296 ∧
    (Response.fail .noKeyError).encode = (Response.fail .noKeyError).encode ∧ (List.replicate 16 (0 : Byte)).length % 16 = 0 ∧
    someContext.keyValid = true := by decide

end Sys2Proof.Tests
end

/-! PROOFS. The cipher context: what a command and a step do to it, that the answers of a run depend on nothing else of the state but
the events to come, and the statements about both. -/

namespace Sys2Proof.Machine

/-! ## The context and what loads it -/

/-- A context is loaded exactly while `KEY_VALID = 1`, and then it is `RK` (R14). -/
theorem State.context_eq_some {s : State} {rk : RoundKeys} : s.context = some rk ↔ s.keyValid = true ∧ s.rk = rk := by
  simp [State.context]

/-- The flag and the registers fix the context (R14). -/
theorem State.context_congr {s t : State} (hv : t.keyValid = s.keyValid) (hrk : t.rk = s.rk) : t.context = s.context := by
  simp [State.context, hv, hrk]

@[simp] theorem State.context_withEvents (s : State) (es : List Event) : { s with events := es }.context = s.context := rfl

@[simp] theorem State.loadOptional_keyValid (s : State) (o : Option RoundKeys) :
    (s.loadOptional o).keyValid = (o.isSome || s.keyValid) := by cases o <;> rfl

@[simp] theorem State.loadOptional_context (s : State) (o : Option RoundKeys) :
    (s.loadOptional o).context = o.or s.context := by cases o <;> rfl

/-- Only a `CONSTRUCT` with a 16-byte key loads a context (R21, R93). -/
theorem loadedBy_eq_none {i : Instr} : loadedBy i = none ↔ ∀ key, i = .construct key → key.length ≠ 16 := by
  cases i with
  | construct key => simp [loadedBy, toBlock_eq_none]
  | _ => simp [loadedBy]

/-- A successful `CONSTRUCT`, whole (R93). -/
theorem exec_construct_block (k : Block) (s : State) :
    exec (.construct k.toList) s = .next ((s.loadContext (keyExpand k)).respond (.ok [])) := by
  simp [exec_eq, loadedBy, responseOf]

/-- A command that loads nothing leaves the context alone (R13, R21). -/
theorem exec_keeps_context {i : Instr} {s t : State} (h : exec i s = .next t) (hl : loadedBy i = none) :
    t.keyValid = s.keyValid ∧ t.rk = s.rk := by
  rw [exec_eq, hl] at h
  cases h
  exact ⟨rfl, rfl⟩

/-- Without a context, each of the four commands that need one does nothing but answer `NoKeyError` (R14, R159). -/
theorem exec_without_context {s : State} (hv : s.keyValid = false) {d : List Byte} {i : Instr}
    (hi : i ∈ [Instr.encryptBlock d, .decryptBlock d, .encryptEcbCtx d, .decryptEcbCtx d]) :
    exec i s = .next (s.respond (.fail .noKeyError)) := by
  rw [exec_eq, s.context_none hv]
  simp only [List.mem_cons, List.not_mem_nil, or_false] at hi
  rcases hi with rfl | rfl | rfl | rfl <;> rfl

/-- Under equal contexts a command answers the same (R42). -/
theorem exec_answers_alike (i : Instr) {s s' : State} (h : s.context = s'.context) :
    ∃ t t' r, exec i s = .next t ∧ exec i s' = .next t' ∧ t.responses = s.responses ++ [r] ∧
      t'.responses = s'.responses ++ [r] :=
  ⟨_, _, (responseOf i s.context).encode, exec_eq i s, exec_eq i s', by simp, by simp [h]⟩

/-! ## Steps and runs -/

/-- Every step answers a next state (R191). -/
theorem exists_step (s : State) : ∃ t, step s = .next t := by
  rcases step_cases s with ⟨-, e⟩ | ⟨_, -, e⟩ | ⟨_, _, _, -, -, e⟩ | ⟨_, _, _, -, -, e⟩ <;> exact ⟨_, e⟩

/-- A step takes the next event, if there is one (R44). -/
theorem step_events {s t : State} (h : step s = .next t) : t.events = s.events.tail := by
  rcases step_cases s with ⟨he, e⟩ | ⟨_, he, e⟩ | ⟨_, _, _, he, -, e⟩ | ⟨_, _, _, he, -, e⟩ <;>
    cases e.symm.trans h <;> simp [he]

/-- What every step keeps, every run keeps. -/
theorem core_run_keeps {P : State → Prop} (hstep : ∀ s t, P s → step s = .next t → P t) {n : Nat} {s t : State}
    (hs : P s) (h : core.run n s = .next t) : P t := by
  induction n generalizing s with
  | zero => cases h; exact hs
  | succ n ih =>
    obtain ⟨u, hu⟩ := exists_step s
    rw [core_run_succ hu] at h
    exact ih (hstep s u hs hu) h

/-- Two states that differ at most in what no answer depends on: the responses already sent, the count of free words, and `RK` while it is
not loaded (R14, R42). -/
structure State.Alike (s s' : State) : Prop where
  context : s.context = s'.context
  events : s.events = s'.events

/-- Alike states answer alike, and a step leaves them alike. -/
theorem State.Alike.step {s s' : State} (h : s.Alike s') :
    ∃ t t' added, step s = .next t ∧ step s' = .next t' ∧ t.Alike t' ∧ t.responses = s.responses ++ added ∧
      t'.responses = s'.responses ++ added := by
  rcases step_cases s with ⟨he, e⟩ | ⟨rest, he, e⟩ | ⟨f, rest, _, he, hd, e⟩ | ⟨f, rest, i, he, hd, e⟩ <;>
    have he' := h.events.symm.trans he
  · exact ⟨_, _, [], e, step_idle he', h, by simp, by simp⟩
  · exact ⟨_, _, [], e, step_reset he', ⟨rfl, rfl⟩, by simp, by simp⟩
  · exact ⟨_, _, [_], e, step_illegal he' hd, ⟨h.context, rfl⟩, rfl, rfl⟩
  · exact ⟨_, _, [(responseOf i s.context).encode], e, step_frame he' hd, ⟨by simp [h.context], by simp⟩, by simp,
      by simp [h.context]⟩

/-- Runs of any length from alike states add the same responses and end in alike states. -/
theorem State.Alike.run {s s' : State} (h : s.Alike s') (n : Nat) :
    ∃ t t' added, core.run n s = .next t ∧ core.run n s' = .next t' ∧ t.Alike t' ∧ t.responses = s.responses ++ added ∧
      t'.responses = s'.responses ++ added := by
  induction n generalizing s s' with
  | zero => exact ⟨s, s', [], rfl, rfl, h, by simp, by simp⟩
  | succ n ih =>
    obtain ⟨u, u', first, hu, hu', huu, hr, hr'⟩ := h.step
    obtain ⟨t, t', later, ht, ht', htt, hl, hl'⟩ := ih huu
    exact ⟨t, t', first ++ later, (core_run_succ hu n).trans ht, (core_run_succ hu' n).trans ht', htt,
      by rw [hl, hr, List.append_assoc], by rw [hl', hr', List.append_assoc]⟩

/-! ## The obligations -/

/-- Settles O15: a command loads a context or leaves the flag as it was, and without a context the four commands that need one only answer. -/
theorem keyValidFlag : Obligations.KeyValidFlag := by
  refine ⟨rfl, fun s key hlen => ?construct, fun i s t h hv => ?kept, fun s d hv i hi => ?noKey⟩
  case construct =>
    obtain ⟨k, -, rfl⟩ := exists_toBlock hlen
    exact ⟨_, exec_construct_block k s, rfl⟩
  case kept =>
    cases (exec_eq i s).symm.trans h
    simp [hv]
  case noKey => rw [exec_without_context hv hi, State.respond_fail]; rfl

/-- Settles O17: of the four things a step can do, waiting, refusing a frame and running a command that loads nothing leave the context
alone, and what is left is the Reset event and the `CONSTRUCT` that loads. -/
theorem contextChangesOnlyByConstructOrReset : Obligations.ContextChangesOnlyByConstructOrReset := by
  intro s t h
  rcases step_cases s with ⟨-, e⟩ | ⟨rest, he, -⟩ | ⟨f, rest, _, -, -, e⟩ | ⟨f, rest, i, he, hd, e⟩
  · cases e.symm.trans h
    exact .inl ⟨rfl, rfl⟩
  · exact .inr (.inl ⟨rest, he⟩)
  · cases e.symm.trans h
    exact .inl ⟨rfl, rfl⟩
  · by_cases hl : loadedBy i = none
    · rw [hl] at e
      cases e.symm.trans h
      exact .inl ⟨rfl, rfl⟩
    · obtain ⟨key, rfl, hlen⟩ : ∃ key, i = .construct key ∧ key.length = 16 := by
        simpa [loadedBy_eq_none] using hl
      exact .inr (.inr ⟨f, rest, key, he, hd, hlen⟩)

/-- An event that leaves the context alone: neither a Reset event nor the frame of a `CONSTRUCT` with a 16-byte key (R21). -/
def Event.KeepsContext (e : Event) : Prop :=
  e ≠ .reset ∧ ∀ f key, e = .frame f → decode f = .ok (.construct key) → key.length ≠ 16

/-- A step that takes no other event leaves the context alone (R21). -/
theorem step_keeps_context {s t : State} (h : step s = .next t) (hk : ∀ e ∈ s.events, e.KeepsContext) :
    t.context = s.context := by
  rcases contextChangesOnlyByConstructOrReset s t h with ⟨hv, hrk⟩ | ⟨rest, he⟩ | ⟨f, rest, key, he, hd, hlen⟩
  · exact State.context_congr hv hrk
  · exact absurd rfl (hk .reset (by simp [he])).1
  · exact absurd hlen ((hk (.frame f) (by simp [he])).2 f key rfl hd)

/-- A run that takes no other event leaves the context alone (R21). -/
theorem core_run_keeps_context {n : Nat} {s t : State} (h : core.run n s = .next t)
    (hk : ∀ e ∈ s.events, e.KeepsContext) : t.context = s.context := by
  have hstep : ∀ u v : State, (u.context = s.context ∧ ∀ e ∈ u.events, e.KeepsContext) → step u = .next v →
      v.context = s.context ∧ ∀ e ∈ v.events, e.KeepsContext := by
    rintro u v ⟨hc, hu⟩ huv
    refine ⟨(step_keeps_context huv hu).trans hc, fun e he => hu e (List.mem_of_mem_tail ?_)⟩
    rwa [← step_events huv]
  exact (core_run_keeps hstep ⟨rfl, hk⟩ h).1

/-- Settles O24: after the `CONSTRUCT` the two states are alike, so they answer alike from then on. -/
theorem constructReplacesContext : Obligations.ConstructReplacesContext := by
  refine ⟨fun k s s' => ?next, fun k s s' n he => ?run, fun key data s i hi => ?inline⟩
  case next =>
    exact ⟨_, _, exec_construct_block k s, exec_construct_block k s', rfl, rfl, rfl, rfl,
      fun i => exec_answers_alike i rfl⟩
  case run =>
    have halike : ((s.loadContext (keyExpand k)).respond (.ok [])).Alike
        ((s'.loadContext (keyExpand k)).respond (.ok [])) := ⟨rfl, he⟩
    obtain ⟨u, u', added, hu, hu', huu, hr, hr'⟩ := halike.run n
    refine ⟨_, _, u, u', added, exec_construct_block k s, exec_construct_block k s', hu, hu', hr, hr', fun hk => ?_⟩
    have hc : u.context = some (keyExpand k) := core_run_keeps_context hu hk
    obtain ⟨hv, hrk⟩ := State.context_eq_some.1 hc
    obtain ⟨hv', hrk'⟩ := State.context_eq_some.1 (huu.context.symm.trans hc)
    exact ⟨hv, hv', hrk, hrk'⟩
  case inline =>
    have hl : loadedBy i = none := by
      simp only [List.mem_cons, List.not_mem_nil, or_false] at hi
      rcases hi with rfl | rfl <;> rfl
    exact ⟨_, exec_eq i s, exec_keeps_context (exec_eq i s) hl⟩

/-- Settles O38: the view is the reversed list. -/
theorem reversedKeysView : Obligations.ReversedKeysView := by
  intro rk i hi
  simp [reversedKeys, List.getElem_reverse]

end Sys2Proof.Machine

/-! PROOFS. The operand forms: the byte and word conversions (R31 to R34) and the blocks of a buffer (R43), and with them ECB apply and
that the commands are functions of the context and the frame. -/

namespace Sys2Proof.Machine

/-! ## Bytes and words -/

/-- `BE32` by shifts, as the rule writes it (R31): each bit of the word lies in one byte, and the other three, shifted to their own places,
are zero there. -/
theorem be32_eq_shifts (b0 b1 b2 b3 : Byte) : be32 b0 b1 b2 b3 =
    (b0.setWidth 32 <<< 24) ||| (b1.setWidth 32 <<< 16) ||| (b2.setWidth 32 <<< 8) ||| b3.setWidth 32 := by
  have hout (b : Byte) {i : Nat} (h : 8 ≤ i) : b.getLsbD i = false := BitVec.getLsbD_of_ge b i h
  apply BitVec.eq_of_getLsbD_eq
  intro i hi
  rw [be32_getLsbD]
  simp only [BitVec.getLsbD_or, BitVec.getLsbD_shiftLeft, BitVec.getLsbD_setWidth]
  grind

/-- `UNBE32` undoes `BE32` (R32). -/
@[simp] theorem unbe32_be32 (b0 b1 b2 b3 : Byte) : unbe32 (be32 b0 b1 b2 b3) = [b0, b1, b2, b3] := by simp [unbe32]

/-- `BE32` undoes `UNBE32` (R32). -/
@[simp] theorem be32_bytes (w : Word) : be32 (byte0 w) (byte1 w) (byte2 w) (byte3 w) = w := by
  apply BitVec.eq_of_getLsbD_eq
  intro i hi
  rw [be32_getLsbD]
  simp only [byte0, byte1, byte2, byte3, BitVec.getLsbD_extractLsb']
  grind

/-- The rule's `BE32` of four bytes is the machine's (R31). -/
@[simp] theorem reference_be32 (b0 b1 b2 b3 : Byte) : Reference.be32 [b0, b1, b2, b3] = be32 b0 b1 b2 b3 :=
  (be32_eq_shifts b0 b1 b2 b3).symm

/-! ## Reading a stretch of a buffer -/

/-- Two adjacent stretches make one (R6). -/
theorem memRead_append (b : List Byte) (a m n : Nat) :
    Reference.memRead b a m ++ Reference.memRead b (a + m) n = Reference.memRead b a (m + n) := by
  simp [Reference.memRead, List.take_add, List.drop_drop]

/-- A whole buffer, read from its start (R6). -/
theorem memRead_all {b : List Byte} {n : Nat} (h : b.length = n) : Reference.memRead b 0 n = b := by
  simp [Reference.memRead, ← h]

/-- Four bytes of a block, one by one (R6). -/
theorem memRead_block (b : Block) {a : Nat} (h : a + 4 ≤ 16) :
    Reference.memRead b.toList a 4 = [b[a], b[a + 1], b[a + 2], b[a + 3]] := by
  apply List.ext_getElem
  · simp [Reference.memRead]; omega
  · intro i h1 h2
    match i, h2 with
    | 0, _ | 1, _ | 2, _ | 3, _ => simp [Reference.memRead]

/-! ## Blocks and words -/

/-- `Unpack4` by the rule's reads (R33). -/
theorem unpack4_eq_reference (b : Block) : unpack4 b =
    ⟨Reference.be32 (Reference.memRead b.toList 0 4), Reference.be32 (Reference.memRead b.toList 4 4),
      Reference.be32 (Reference.memRead b.toList 8 4), Reference.be32 (Reference.memRead b.toList 12 4)⟩ := by
  simp [memRead_block, unpack4]

/-- `Unpack4` undoes `Pack4` (R34). -/
@[simp] theorem unpack4_pack4 (w : Window) : unpack4 (pack4 w.a0 w.a1 w.a2 w.a3) = w := by
  simp [unpack4, pack4, unbe32]

/-- `Pack4` undoes `Unpack4` (R34): the bytes of the four words are the four quarters of the block. -/
@[simp] theorem pack4_unpack4 (b : Block) :
    pack4 (unpack4 b).a0 (unpack4 b).a1 (unpack4 b).a2 (unpack4 b).a3 = b := by
  apply Vector.toList_inj.1
  calc (pack4 (unpack4 b).a0 (unpack4 b).a1 (unpack4 b).a2 (unpack4 b).a3).toList
      = unbe32 (unpack4 b).a0 ++ unbe32 (unpack4 b).a1 ++ unbe32 (unpack4 b).a2 ++ unbe32 (unpack4 b).a3 := rfl
    _ = Reference.memRead b.toList 0 4 ++ Reference.memRead b.toList 4 4 ++ Reference.memRead b.toList 8 4 ++
          Reference.memRead b.toList 12 4 := by simp [unpack4, memRead_block]
    _ = Reference.memRead b.toList 0 16 := by simp only [memRead_append b.toList 0]
    _ = b.toList := memRead_all (by simp)

/-! ## The blocks of a buffer -/

/-- Block `j` of joined blocks (R43). -/
theorem memRead_joinBlocks {bs : List Block} {j : Nat} (h : j < bs.length) :
    Reference.memRead (joinBlocks bs) (16 * j) 16 = bs[j].toList := by
  induction bs generalizing j with
  | nil => cases h
  | cons b bs ih =>
    cases j with
    | zero => simp [Reference.memRead, joinBlocks]
    | succ j =>
      have hdrop : (b.toList ++ joinBlocks bs).drop (16 * (j + 1)) = (joinBlocks bs).drop (16 * j) := by
        rw [Nat.mul_succ, Nat.add_comm, ← List.drop_drop, List.drop_left' (by simp)]
      have hih := ih (j := j) (by simpa using h)
      simpa [Reference.memRead, joinBlocks, hdrop] using hih

/-- A buffer of whole blocks is its blocks put end to end (R43). -/
theorem joinBlocks_splitBlocks {b : List Byte} (h : b.length % 16 = 0) : joinBlocks (splitBlocks b) = b :=
  joinBlocks_takeBlocks (by omega)

/-- Block `j` of a buffer of whole blocks, as the cutting gives it (R43). -/
theorem splitBlocks_getElem {b : List Byte} {j : Nat} {blk : Block} (h : b.length % 16 = 0)
    (hj : j < (splitBlocks b).length) (hblk : blk.toList = Reference.memRead b (16 * j) 16) : (splitBlocks b)[j] = blk := by
  apply Vector.toList_inj.1
  rw [hblk, ← memRead_joinBlocks hj, joinBlocks_splitBlocks h]

/-! ## Commands sent again -/

/-- A command that loads nothing sends its one answer and changes nothing else (R42). -/
theorem exec_of_loadedBy_none {i : Instr} (h : loadedBy i = none) (s : State) :
    exec i s = .next (s.respond (responseOf i s.context)) := by
  rw [exec_eq, h, State.loadOptional_none]

/-- Any command carried out again leaves the context the first one left (R42). -/
theorem exec_context_idempotent {i : Instr} {s t : State} (h : exec i s = .next t) :
    ∃ t', exec i t = .next t' ∧ t'.keyValid = t.keyValid ∧ t'.rk = t.rk := by
  refine ⟨_, exec_eq i t, ?_⟩
  cases (exec_eq i s).symm.trans h
  cases loadedBy i <;> exact ⟨rfl, rfl⟩

/-! ## The obligations -/

/-- Settles O14: a command that is no `CONSTRUCT` loads nothing, so it only sends the answer that the context gives it. -/
theorem commandsArePure : Obligations.CommandsArePure := by
  refine ⟨fun i hi => ⟨fun c => (responseOf i c).encode, fun s => ?_⟩, fun key s t h => exec_context_idempotent h⟩
  have hl : loadedBy i = none := loadedBy_eq_none.2 fun key e => absurd e (hi key)
  exact exec_of_loadedBy_none hl s

/-- Settles O49: block `j` of the joined results is the transform of the `j`-th block the cutting gives. -/
theorem ecbAppliesBlockwise : Obligations.EcbAppliesBlockwise := by
  refine fun b k hmod => ⟨by rw [ecbApply_length_eq]; omega, fun j blk hj hblk => ?_⟩
  have hj' : j < (splitBlocks b).length := by simpa using hj
  rw [ecbApply, memRead_joinBlocks (by simpa using hj), List.getElem_map, splitBlocks_getElem hmod hj' hblk]

/-- Settles O36: the two conversions undo each other byte by byte; the examples are evaluated. -/
theorem wordByteConversion : Obligations.WordByteConversion :=
  ⟨be32_eq_shifts, unbe32_be32, fun w => ⟨be32_bytes w, rfl⟩, by decide, by decide⟩

/-- Settles O37: each word is read from its own quarter of the block. -/
theorem blockWordConversion : Obligations.BlockWordConversion :=
  ⟨unpack4_eq_reference, fun _ _ _ _ => rfl, unpack4_pack4, pack4_unpack4⟩

end Sys2Proof.Machine

/-! PROOFS. The frames of 30_encoding.md: what the decoder accepts (R58), that the encoder inverts it (R60), that the decoder is the rule's
`Decode` (R59), and the longest result of a command (R57). -/

namespace Sys2Proof.Machine

/-! ## The parts of a frame -/

/-- A frame lacks a whole header, or is the six header bytes and what follows them (R50). -/
theorem frame_cases (f : List Byte) :
    f.length < 6 ∨ ∃ op klen d0 d1 d2 d3 rest, f = op :: klen :: d0 :: d1 :: d2 :: d3 :: rest := by
  rcases f with _ | ⟨op, _ | ⟨klen, _ | ⟨d0, _ | ⟨d1, _ | ⟨d2, _ | ⟨d3, rest⟩⟩⟩⟩⟩⟩
  case cons.cons.cons.cons.cons.cons => exact .inr ⟨op, klen, d0, d1, d2, d3, rest, rfl⟩
  all_goals exact .inl (by simp)

/-- Operand bytes of the announced number are a key and data of the announced lengths (R51). -/
theorem exists_operands {rest : List Byte} {klen dlen : Nat} (h : rest.length = klen + dlen) :
    ∃ key data, rest = key ++ data ∧ key.length = klen ∧ data.length = dlen :=
  ⟨rest.take klen, rest.drop klen, by simp, by simp; omega, by simp; omega⟩

section
variable (op klen d0 d1 d2 d3 : Byte) (key data rest : List Byte)

/-- The bytes of `DLEN`, where the rule reads them (R50). -/
theorem memRead_dlen : Reference.memRead (op :: klen :: d0 :: d1 :: d2 :: d3 :: rest) 2 4 = [d0, d1, d2, d3] := rfl

/-- The key, where the rule reads it (R51). -/
theorem memRead_key :
    Reference.memRead (op :: klen :: d0 :: d1 :: d2 :: d3 :: (key ++ data)) 6 key.length = key := by
  simp [Reference.memRead]

/-- The data, where the rule reads it (R51). -/
theorem memRead_data :
    Reference.memRead (op :: klen :: d0 :: d1 :: d2 :: d3 :: (key ++ data)) (6 + key.length) data.length = data := by
  simp [Reference.memRead, Nat.add_comm 6]

end

/-! ## What the decoder accepts -/

/-- The opcodes are 1 to 9 (R53). -/
theorem opcode_bounds (i : Instr) : 1 ≤ i.opcode.toNat ∧ i.opcode.toNat ≤ 9 := by
  cases i <;> simp [Instr.opcode]

theorem encode_eq (i : Instr) : encode i =
    i.opcode :: BitVec.ofNat 8 i.key.length :: unbe32 (BitVec.ofNat 32 i.data.length) ++ i.key ++ i.data := rfl

/-- A frame without a whole header is rejected (R58, case (a)). -/
theorem decodeWith_of_short {maxBuf : Nat} {f : List Byte} (h : f.length < 6) : decodeWith maxBuf f = .error .tooShort := by
  unfold decodeWith
  split
  · simp at h; omega
  · rfl

/-- A command is accepted under a condition exactly when the condition holds. -/
theorem ite_ok_eq_ok {p : Prop} [Decidable p] {i j : Instr} {e : Illegal} :
    (if p then Except.ok j else Except.error e) = Except.ok i ↔ p ∧ j = i := by
  split <;> simp [*]

/-- The command of an opcode and operands is the one that has them; an operand it does not take has to be empty (R53, R54). -/
theorem commandOf_eq_ok {op : Byte} {key data : List Byte} {i : Instr} :
    commandOf op key data = .ok i ↔ i.opcode = op ∧ i.key = key ∧ i.data = data := by
  constructor
  · intro h
    unfold commandOf at h
    split at h <;> rename_i hop
    case h_10 => cases h
    case h_4 | h_5 =>
      cases h
      exact ⟨BitVec.eq_of_toNat_eq hop.symm, rfl, rfl⟩
    all_goals
      simp only [ite_ok_eq_ok, List.isEmpty_iff] at h
      obtain ⟨rfl, rfl⟩ := h
      exact ⟨BitVec.eq_of_toNat_eq hop.symm, rfl, rfl⟩
  · rintro ⟨rfl, rfl, rfl⟩
    cases i <;> rfl

/-- A frame with a whole header is accepted as just the command that has its fields (R51, R58). -/
theorem decodeWith_header_eq_ok {maxBuf : Nat} {op klen d0 d1 d2 d3 : Byte} {rest : List Byte} {i : Instr} :
    decodeWith maxBuf (op :: klen :: d0 :: d1 :: d2 :: d3 :: rest) = .ok i ↔
      i.opcode = op ∧ i.key.length = klen.toNat ∧ i.data.length = (be32 d0 d1 d2 d3).toNat ∧
        i.key ++ i.data = rest ∧ i.data.length ≤ maxBuf := by
  constructor
  · intro h
    simp only [decodeWith] at h
    split_ifs at h with hop hmax hlen
    obtain ⟨hopcode, hkey, hdata⟩ := commandOf_eq_ok.1 h
    have hk : i.key.length = klen.toNat := by rw [hkey]; simp; omega
    have hd : i.data.length = (be32 d0 d1 d2 d3).toNat := by rw [hdata]; simp; omega
    exact ⟨hopcode, hk, hd, by simp [hkey, hdata], by omega⟩
  · rintro ⟨rfl, hk, hd, rfl, hmax⟩
    have hop := opcode_bounds i
    simp only [decodeWith]
    rw [if_neg (by omega), if_neg (by omega), if_neg (by simp; omega), ← hk, List.take_left, List.drop_left]
    exact commandOf_eq_ok.2 ⟨rfl, rfl, rfl⟩

/-- The decoder accepts exactly the encodings of the commands that fit (R58, R60). -/
theorem decodeWith_eq_ok {maxBuf : Nat} {f : List Byte} {i : Instr} : decodeWith maxBuf f = .ok i ↔
    encode i = f ∧ i.key.length ≤ 255 ∧ i.data.length ≤ maxBuf ∧ i.data.length < 4294967296 := by
  constructor
  · intro h
    rcases frame_cases f with hshort | ⟨op, klen, d0, d1, d2, d3, rest, rfl⟩
    · rw [decodeWith_of_short hshort] at h; cases h
    obtain ⟨hop, hk, hd, hrest, hmax⟩ := decodeWith_header_eq_ok.1 h
    refine ⟨?_, by omega, hmax, by omega⟩
    rw [encode_eq, hop, hk, hd, ← hrest]
    simp
  · rintro ⟨rfl, hk, hmax, hd⟩
    exact decodeWith_header_eq_ok.2 ⟨rfl, by simp; omega, by simp; omega, rfl, hmax⟩

/-! ## The decoder and the rule's `Decode` -/

theorem toOption_ok (i : Instr) : (Except.ok i : Except Illegal Instr).toOption = some i := rfl

theorem toOption_error (e : Illegal) : (Except.error e : Except Illegal Instr).toOption = none := rfl

theorem toOption_eq_none {r : Except Illegal Instr} : r.toOption = none ↔ ∃ e, r = .error e := by
  cases r <;> simp [toOption_ok, toOption_error]

/-- The decoder and the rule's `Decode` make the same tests in the same order on a header, and take the same key and data (R59). -/
theorem decodeWith_toOption (maxBuf : Nat) (f : List Byte) :
    (decodeWith maxBuf f).toOption = Reference.decode maxBuf f := by
  rcases frame_cases f with hshort | ⟨op, klen, d0, d1, d2, d3, rest, rfl⟩
  · rw [decodeWith_of_short hshort, Reference.decode, if_pos hshort]; rfl
  have hlength : (op :: klen :: d0 :: d1 :: d2 :: d3 :: rest).length = 6 + rest.length := by simp; omega
  rw [Reference.decode, if_neg (by omega)]
  simp only [decodeWith, memRead_dlen, reference_be32, Reference.byteAt, List.getD_cons_zero, List.getD_cons_succ, hlength]
  by_cases hop : op.toNat < 1 ∨ 9 < op.toNat
  · rw [if_pos hop, if_pos hop]; rfl
  by_cases hmax : maxBuf < (be32 d0 d1 d2 d3).toNat
  · rw [if_neg hop, if_neg hop, if_pos hmax, if_pos hmax]; rfl
  rw [if_neg hop, if_neg hop, if_neg hmax, if_neg hmax]
  by_cases hlen : rest.length = klen.toNat + (be32 d0 d1 d2 d3).toNat
  case neg => rw [if_pos hlen, if_pos (by omega)]; rfl
  rw [if_neg (not_not.2 hlen), if_neg (by omega)]
  obtain ⟨key, data, rfl, hk, hd⟩ := exists_operands hlen
  simp only [← hk, ← hd, memRead_key, memRead_data, List.take_left, List.drop_left, commandOf]
  clear hk hd hlen hlength hmax
  split
  case h_10 => exfalso; grind -- the range test leaves no other opcode
  all_goals simp [*, apply_ite Except.toOption, toOption_ok, toOption_error]

theorem ite_none_eq_none {p : Prop} [Decidable p] {x : Option Instr} :
    (if p then none else x) = none ↔ p ∨ x = none := by
  split <;> simp [*]

theorem ite_some_eq_none {p : Prop} [Decidable p] {i : Instr} {x : Option Instr} :
    (if p then some i else x) = none ↔ ¬ p ∧ x = none := by
  split <;> simp [*]

/-! ## The length of a result -/

/-- ECB encryption gives the buffer's whole blocks and one more (R132). -/
theorem ecbEncrypt_length (data : List Byte) (rk : RoundKeys) :
    (ecbEncrypt data rk).length = 16 * (data.length / 16 + 1) := by
  rw [ecbEncrypt, ecbApply_length_eq, pad_length_eq]
  simp only [padCount, Config.padBs]
  omega

/-- ECB decryption never gives more than it is given (R133). -/
theorem ecbDecrypt_length_le {data out : List Byte} {rk : RoundKeys} (h : ecbDecrypt data rk = .ok out) :
    out.length ≤ data.length := by
  have hout := unpad_length_le h
  rw [ecbApply_length_eq] at hout
  omega

@[simp] theorem Response.rdata_ok (b : List Byte) : (Response.ok b).rdata = b := rfl

@[simp] theorem Response.rdata_fail (e : Failure) : (Response.fail e).rdata = [] := rfl

/-- A result is at most a block longer than the data (R57). -/
theorem responseOf_length_le (i : Instr) (c : Option RoundKeys) :
    (responseOf i c).rdata.length ≤ i.data.length + 16 := by
  cases i <;> simp only [responseOf, Instr.data]
  case construct key => cases toBlock key <;> simp
  case encryptBlock data | decryptBlock data => cases c <;> [skip; cases toBlock data] <;> simp
  case encryptEcb key data => cases toBlock key <;> simp [ecbEncrypt_length]; omega
  case encryptEcbCtx data => cases c <;> simp [ecbEncrypt_length]; omega
  case decryptEcb key data =>
    split
    · simp
    cases toBlock key with
    | none => simp
    | some k =>
      cases h : ecbDecrypt data (keyExpand k) with
      | error e => simp [h]
      | ok out => have := ecbDecrypt_length_le h; simp [h]; omega
  case decryptEcbCtx data =>
    cases c with
    | none => simp
    | some rk =>
      dsimp only
      split
      · simp
      cases h : ecbDecrypt data rk with
      | error e => simp
      | ok out => have := ecbDecrypt_length_le h; simp; omega
  case pad data =>
    have hcount : padCount Config.padBs data.length ≤ 16 := (padCount_bounds _ _).2
    rw [Response.rdata_ok, pad_length_eq]
    omega
  case unpad data =>
    cases h : unpad Config.padBs data with
    | error e => simp
    | ok out => have := unpad_length_le h; simp; omega

/-- Every command sends its one response (R55). -/
theorem exec_responds (i : Instr) (s : State) :
    ∃ t, exec i s = .next t ∧ t.responses = s.responses ++ [(responseOf i s.context).encode] :=
  ⟨_, exec_eq i s, by simp⟩

/-! ## The obligations -/

/-- Settles O1: the encoding of a command that fits is what the decoder accepts as that command; the layouts hold by definition. -/
theorem decodeEncodeRoundTrip : Obligations.DecodeEncodeRoundTrip := by
  refine ⟨fun maxBuf i _ hmax hkey hdata => decodeWith_eq_ok.2 ⟨rfl, hkey, hdata, by omega⟩, encode_eq,
    fun key data => ⟨rfl, rfl, rfl, rfl, rfl, rfl, rfl, rfl, rfl, ?construct, rfl⟩, fun r => rfl, by decide, by decide⟩
  have hzero : unbe32 0#32 = [0, 0, 0, 0] := by decide
  simp [encode_eq, Instr.opcode, Instr.key, Instr.data, hzero]

/-- Settles O3: the decoder rejects where the rule's `Decode` does, which is by one of its tests; the answer is a failure's. -/
theorem illegalFramesExactly : Obligations.IllegalFramesExactly := by
  refine ⟨fun maxBuf f => ?cases, fun s f rest e he hd => ?answer⟩
  case cases =>
    rw [← toOption_eq_none, decodeWith_toOption]
    simp only [Reference.decode, ite_none_eq_none, ite_some_eq_none, reduceCtorEq, and_false, or_false]
  case answer => rw [step_illegal he hd, State.respond_fail]; rfl

/-- Settles O4: the machine's decoder, with the reason of a rejection forgotten, is the rule's. -/
theorem decodeMatchesReference : Obligations.DecodeMatchesReference := by
  intro maxBuf f
  rw [← decodeWith_toOption]
  cases decodeWith maxBuf f <;> rfl

/-- Settles O7: the limit is case (c) of the illegal frames; an accepted frame's data is within it and a result adds at most a block; whole
blocks get a whole block of padding. -/
theorem resultsFitRlen : Obligations.ResultsFitRlen := by
  refine ⟨fun maxBuf f _ h => ?illegal, fun maxBuf f i s hmax h => ?bound, fun s k d hv hd i hi => ?reached⟩
  case illegal => exact (illegalFramesExactly.1 maxBuf f).2 (.inr (.inr (.inl h)))
  case bound =>
    obtain ⟨t, he, hr⟩ := exec_responds i s
    obtain ⟨-, -, hdata, -⟩ := decodeWith_eq_ok.1 h
    have hlen := responseOf_length_le i s.context
    exact ⟨t, _, he, hr, hlen, by omega⟩
  case reached =>
    obtain ⟨t, he, hr⟩ := exec_responds i s
    refine ⟨t, _, he, hr, ?_⟩
    simp only [List.mem_cons, List.not_mem_nil, or_false] at hi
    rcases hi with rfl | rfl | rfl
    · simp [responseOf, pad_length_eq, padCount, Config.padBs, hd]
    · simp [responseOf, ecbEncrypt_length]; omega
    · simp [responseOf, s.context_loaded hv, ecbEncrypt_length]; omega

end Sys2Proof.Machine

/-! PROOFS. The round primitives of 40_round_primitives.md: rotation as a permutation of the bit positions (R70), the S-box as a permutation of
the bytes and `tau` of the words (R72, R76), the two diffusions as linear maps (R77, R78), and what the tables hold (R72 to R74). -/

namespace Sys2Proof.Machine

/-! ## Rotation -/

/-- In its range, the rule's rotation is the library's (R70). -/
theorem rotl_eq_rotateLeft (x : Word) {n : Nat} (hn : n ≤ 31) : rotl x n = x.rotateLeft n := by
  rw [rotl, BitVec.rotateLeft_def, Nat.mod_eq_of_lt (by omega)]

/-- Bit `j` goes to position `(j + n) mod 32`: past the top it wraps to the bottom (R70). -/
theorem rotl_getLsbD (x : Word) {n j : Nat} (hn : n ≤ 31) (hj : j < 32) : (rotl x n).getLsbD ((j + n) % 32) = x.getLsbD j := by
  rw [rotl_eq_rotateLeft x hn, BitVec.getLsbD_rotateLeft, Nat.mod_eq_of_lt (show n < 32 by omega)]
  by_cases hwrap : j + n < 32
  · simp [Nat.mod_eq_of_lt hwrap, hwrap]
  · have hpos : (j + n) % 32 = j + n - 32 := by omega
    simp [hpos, show j + n - 32 < n by omega, show 32 - n + (j + n - 32) = j by omega]

/-- No bit is lost (R70): the positions `(j + n) mod 32` are all 32, so a word is the rotation of `x` when its bits there are those of `x`. -/
theorem rotl_eq_of_getLsbD {x y : Word} {n : Nat} (hn : n ≤ 31) (h : ∀ j < 32, y.getLsbD ((j + n) % 32) = x.getLsbD j) :
    rotl x n = y := by
  apply BitVec.eq_of_getLsbD_eq
  intro i hi
  obtain ⟨j, hj, rfl⟩ : ∃ j < 32, i = (j + n) % 32 := ⟨(i + 32 - n) % 32, by omega, by omega⟩
  rw [rotl_getLsbD x hn hj, h j hj]

/-- The rule's formula on the numbers: only the left shift can pass bit 31 (R70). -/
theorem rotl_toNat (x : Word) (n : Nat) :
    (rotl x n).toNat = (x.toNat * 2 ^ n ||| x.toNat / 2 ^ (32 - n)) % 2 ^ 32 := by
  have hlow : x.toNat / 2 ^ (32 - n) < 2 ^ 32 := (Nat.div_le_self ..).trans_lt x.isLt
  rw [Nat.or_mod_two_pow, Nat.mod_eq_of_lt hlow]
  simp [rotl, BitVec.toNat_shiftLeft, Nat.shiftLeft_eq, Nat.shiftRight_eq_div_pow]

/-- Rotation moves the bits of an XOR as it moves those of its operands (R70, R71). -/
theorem rotl_xor (a b : Word) {n : Nat} (hn : n ≤ 31) : rotl (a ^^^ b) n = rotl a n ^^^ rotl b n :=
  rotl_eq_of_getLsbD hn fun j hj => by simp only [BitVec.getLsbD_xor, rotl_getLsbD _ hn hj]

/-! ## The S-box and `tau` -/

/-- The index at which the S-box holds a byte: the inverse of `SBOX`, as one string of 256 bytes, entry 0 first. -/
def sboxIndex (y : Byte) : Byte := BitVec.ofNat 8 (
  0x716C7AB8160F1E4135EBD02AE4AC625ACDC8DB1A0A8E0846F04B96C132A060CCF76D69AA61681B760CA914100ED8A3B79BD29A28955F79B286FEF46B4A06FB3E84CB212B19B37240FF1CE35B78F6AE4E22BF77AD29975D736549CEBECA9263FAA78D2F6455E8A51150E1BA51BDBCEDAF5C54BB45D93C13E66EF827D66AF2E7C73852A448EF4D1D6FD3E082579DC0B63D0124C3993A37E5E2261F1294205E7F747C8F678893D43F424F3318AB2E9891C2DF9E5331DE870907DCE947C4C6D71581A8D10B177DECEE857E34A6FD04D58B2DDA66837570B000FCCFC956B1F5C5B4399005A29F30DD4C7B36028059F32CF925F1EA8A44239CA189588C3B0D43B503B9
    / 256 ^ (255 - y.toNat))

/-- The S-box holds each byte at its index (R72). -/
@[simp] theorem sbox_sboxIndex : ∀ y : Byte, sbox (sboxIndex y) = y := by decide +kernel

/-- The S-box is a permutation of the bytes (R72): every byte has an index, and there are as many indices as bytes. -/
theorem sbox_bijective : Function.Bijective sbox :=
  Function.Surjective.bijective_of_finite fun y => ⟨sboxIndex y, sbox_sboxIndex y⟩

/-- `tau` substitutes each byte in its place (R76). -/
@[simp] theorem tau_be32 (b0 b1 b2 b3 : Byte) : tau (be32 b0 b1 b2 b3) = be32 (sbox b0) (sbox b1) (sbox b2) (sbox b3) := by
  simp [tau]

/-- `tau` is a permutation of the words (R76): each is the image of the word made of the indices of its bytes. -/
theorem tau_bijective : Function.Bijective tau := by
  refine Function.Surjective.bijective_of_finite fun y => ?_
  exact ⟨be32 (sboxIndex (byte0 y)) (sboxIndex (byte1 y)) (sboxIndex (byte2 y)) (sboxIndex (byte3 y)), by simp⟩

/-! ## The diffusions -/

/-- `L` is linear over XOR, as each of its rotations is (R77). -/
theorem diffL_xor (a b : Word) : diffL (a ^^^ b) = diffL a ^^^ diffL b := by
  simp only [diffL, rotl_xor, Nat.reduceLeDiff]
  ac_rfl

/-- `Lp` is linear over XOR, as each of its rotations is (R78). -/
theorem diffLp_xor (a b : Word) : diffLp (a ^^^ b) = diffLp a ^^^ diffLp b := by
  simp only [diffLp, rotl_xor, Nat.reduceLeDiff]
  ac_rfl

/-! ## The obligations -/

/-- Settles O39: rotation permutes the bit positions, so the word of zeros and the word of ones, whose bits are all alike, stay as they are. -/
theorem rotationMovesBits : Obligations.RotationMovesBits := by
  refine ⟨fun x n j hn hj => rotl_getLsbD x hn hj, fun x => ?zero, fun x n _ _ => rotl_toNat x n,
    fun n hn => ⟨?zeros, ?ones⟩, by decide, by decide⟩
  case zero => exact rotl_eq_of_getLsbD (by omega) fun j hj => by rw [Nat.add_zero, Nat.mod_eq_of_lt hj]
  case zeros => exact rotl_eq_of_getLsbD hn fun j _ => by simp
  case ones =>
    rw [show (0xFFFFFFFF : Word) = BitVec.allOnes 32 from rfl]
    exact rotl_eq_of_getLsbD hn fun j hj => by simp only [BitVec.getLsbD_allOnes, hj, Nat.mod_lt, Nat.zero_lt_succ]

/-- Settles O40: `tau` permutes the words bytewise, and it is not linear because it does not keep zero. -/
theorem tauPermutesWords : Obligations.TauPermutesWords := by
  refine ⟨tau_be32, tau_bijective, fun hlinear => ?nonlinear, by decide, by decide, by decide, by decide, by decide⟩
  have hzero : tau 0 = 0 := by simpa using hlinear 0 0
  exact absurd hzero (by decide)

/-- Settles O41: both diffusions are XORs of rotations, which are linear. -/
theorem diffusionsLinear : Obligations.DiffusionsLinear :=
  ⟨fun _ => ⟨rfl, rfl⟩, fun a b => ⟨diffL_xor a b, diffLp_xor a b⟩, by decide⟩

/-- Settles O54: the two combinators are told apart by the word 0. -/
theorem combinatorsCompose : Obligations.CombinatorsCompose := by
  have hdistinct : combT ≠ combTp := fun h => absurd (congrFun h 0) (by decide)
  exact ⟨fun _ => ⟨rfl, rfl⟩, by decide, by decide, by decide, by decide, by decide, by decide, by decide, by decide, hdistinct⟩

/-- Settles O55: the tables are read off entry by entry; the one zero of the S-box is a matter of its injectivity. -/
theorem tableContents : Obligations.TableContents := by
  refine ⟨?sboxString, sbox_bijective, fun x => ?zero, ?fixedPoint, rfl, ?ckBytes⟩
  case sboxString => decide +kernel
  case zero => exact sbox_bijective.injective.eq_iff' (by decide)
  case fixedPoint => decide +kernel
  case ckBytes => decide +kernel

end Sys2Proof.Machine

/-! PROOFS. The key schedule of 41_key_schedule.md: the engine's sliding window follows the rule's 36 words (R82, R90, R91), so the round keys are
the rule's (R92); and the command `CONSTRUCT` in both its outcomes (R93). -/

namespace Sys2Proof.Machine

/-! ## The window on a sequence of words -/

/-- The window on a sequence of words that starts at word `n` (R82). -/
def Window.ofSeq (K : Nat → Word) (n : Nat) : Window := ⟨K n, K (n + 1), K (n + 2), K (n + 3)⟩

/-- The window slides to the next place when the sequence's next word is shifted in (R82). -/
@[simp] theorem Window.ofSeq_slide (K : Nat → Word) (n : Nat) :
    (Window.ofSeq K n).slide (K (n + 4)) = Window.ofSeq K (n + 1) := rfl

/-! ## The schedule -/

/-- From the window on any sequence that obeys the recurrence, the schedule steps yield the sequence's further words (R91). -/
theorem scheduleWords_getElem {K : Nat → Word} {cs : List Word} {n : Nat}
    (hK : ∀ (i : Nat) (h : i < cs.length), K (n + i + 4) = roundFp (.ofSeq K (n + i)) cs[i])
    {i : Nat} (hi : i < (scheduleWords (.ofSeq K n) cs).length) :
    (scheduleWords (.ofSeq K n) cs)[i] = K (n + i + 4) := by
  induction cs generalizing n i with
  | nil => cases hi
  | cons c cs ih =>
    have hfirst : roundFp (.ofSeq K n) c = K (n + 4) := (hK 0 (by simp)).symm
    have hrest (j : Nat) (h : j < cs.length) : K (n + 1 + j + 4) = roundFp (.ofSeq K (n + 1 + j)) cs[j] := by
      rw [Nat.add_right_comm n 1 j]
      exact hK (j + 1) (Nat.succ_lt_succ h)
    simp only [scheduleWords, hfirst, Window.ofSeq_slide] at hi ⊢
    cases i with
    | zero => rfl
    | succ i => rw [List.getElem_cons_succ, ih hrest, Nat.add_right_comm n 1 i, Nat.add_assoc n i 1]

/-- Each word of the rule from the four before it and one round constant (R91). -/
theorem scheduleWord_add_four (key : List Byte) {i : Nat} (hi : i < 32) :
    Reference.scheduleWord key (i + 4) = roundFp (.ofSeq (Reference.scheduleWord key) i) ck[i] := by
  have hck : ck.toList.getD i 0 = ck[i] := by simp [hi]
  rw [Reference.scheduleWord, hck]
  rfl

/-- The seed is the window on the rule's first four words (R90). -/
theorem keySeed_eq_ofSeq (key : Block) : keySeed key = .ofSeq (Reference.scheduleWord key.toList) 0 := by
  rw [keySeed, unpack4_eq_reference]
  rfl

/-- Round key `i` is the rule's word `K[i + 4]` (R92). -/
theorem keyExpand_getElem (key : Block) {i : Nat} (hi : i < 32) :
    (keyExpand key)[i] = Reference.scheduleWord key.toList (i + 4) := by
  have hK (j : Nat) (h : j < ck.toList.length) : Reference.scheduleWord key.toList (0 + j + 4) =
      roundFp (.ofSeq (Reference.scheduleWord key.toList) (0 + j)) ck.toList[j] := by
    simpa using scheduleWord_add_four key.toList (by simpa using h)
  have hget := scheduleWords_getElem hK (i := i) (by simpa [scheduleWords_length] using hi)
  simpa [keyExpand, keySeed_eq_ofSeq] using hget

/-! ## `CONSTRUCT` -/

/-- The frame of a success without result bytes (R60). -/
@[simp] theorem Response.encode_ok_nil : (Response.ok []).encode = [0, 0, 0, 0, 0] := by decide

/-- A `CONSTRUCT` whose key is not 16 bytes long only answers `KeyLengthError` (R39, R93). -/
theorem exec_construct_wrong_length {key : List Byte} (h : key.length ≠ 16) (s : State) :
    exec (.construct key) s = .next (s.respond (.fail .keyLengthError)) := by
  simp [exec_eq, loadedBy, responseOf, toBlock_eq_none.2 h]

/-! ## The obligations -/

/-- Settles O42: the words are the rule's own, the ones that the engine's window moves along. -/
theorem keyScheduleRecurrence : Obligations.KeyScheduleRecurrence := by
  intro key
  have hseed : Window.ofSeq (Reference.scheduleWord key.toList) 0 = keySeed key := (keySeed_eq_ofSeq key).symm
  obtain ⟨h0, h1, h2, h3⟩ := Window.mk.inj hseed
  obtain ⟨-, -, -, -, -, hck⟩ := tableContents
  exact ⟨Reference.scheduleWord key.toList, h0, h1, h2, h3, fun i hi => scheduleWord_add_four key.toList hi, hck,
    fun i hi => keyExpand_getElem key hi⟩

/-- Settles O25: the two outcomes of the length test, with the state that each leaves written out. -/
theorem constructLoadsContext : Obligations.ConstructLoadsContext := by
  refine ⟨fun key => rfl, fun s k => ?loads, fun s key hlen => ?fails⟩
  case loads =>
    rw [exec_construct_block, State.respond, Response.encode_ok_nil]
    rfl
  case fails =>
    rw [exec_construct_wrong_length hlen, State.respond_fail]
    rfl

end Sys2Proof.Machine

/-! PROOFS. The block engine of 42_block_engine.md: its sliding window follows the rule's 36 words (R82, R100 to R102), the rounds run backwards
under the reversed keys (R106), and what the two block commands answer (R104, R105, R108). -/

namespace Sys2Proof.Machine

/-! ## The rounds on a sequence of words -/

/-- From the window on any sequence that obeys the recurrence, the rounds move the window along it, one place per key (R82, R101). -/
theorem blockRounds_ofSeq {X : Nat → Word} {ks : List Word} {n : Nat}
    (hX : ∀ (i : Nat) (h : i < ks.length), X (n + i + 4) = roundF (.ofSeq X (n + i)) ks[i]) :
    blockRounds (.ofSeq X n) ks = .ofSeq X (n + ks.length) := by
  induction ks generalizing n with
  | nil => rfl
  | cons k ks ih =>
    have hfirst : roundF (.ofSeq X n) k = X (n + 4) := (hX 0 (by simp)).symm
    have hrest (j : Nat) (h : j < ks.length) : X (n + 1 + j + 4) = roundF (.ofSeq X (n + 1 + j)) ks[j] := by
      rw [Nat.add_right_comm n 1 j]
      exact hX (j + 1) (Nat.succ_lt_succ h)
    rw [blockRounds_cons, hfirst, Window.ofSeq_slide, ih hrest, List.length_cons, Nat.add_right_comm, Nat.add_assoc]

/-- The 36 words of the block transform of a block under 32 round keys, by the rule's recurrence (R100, R101). -/
def cryptWord (b : Block) (k : RoundKeys) : Nat → Word := Reference.roundWord b.toList fun i => k.toList.getD i 0

/-- Each word of the rule from the four before it and one round key (R101). -/
theorem cryptWord_add_four (b : Block) (k : RoundKeys) {i : Nat} (hi : i < 32) :
    cryptWord b k (i + 4) = roundF (.ofSeq (cryptWord b k) i) k[i] := by
  have hk : k.toList.getD i 0 = k[i] := by simp [hi]
  rw [cryptWord, Reference.roundWord, hk]
  rfl

/-- The words of the block are the window on the rule's first four words (R100). -/
theorem unpack4_eq_ofSeq (b : Block) (k : RoundKeys) : unpack4 b = .ofSeq (cryptWord b k) 0 :=
  unpack4_eq_reference b

/-- The block transform packs the window on the last four of the rule's words (R102). -/
theorem crypt_eq_ofSeq (b : Block) (k : RoundKeys) : crypt b k = packReversed (.ofSeq (cryptWord b k) 32) := by
  have hX (i : Nat) (h : i < k.toList.length) :
      cryptWord b k (0 + i + 4) = roundF (.ofSeq (cryptWord b k) (0 + i)) k.toList[i] := by
    simpa using cryptWord_add_four b k (by simpa using h)
  rw [crypt, unpack4_eq_ofSeq b k, blockRounds_ofSeq hX, Vector.length_toList]

/-! ## The rounds backwards -/

/-- The rounds under the keys in reverse order lead the reversed window back: they undo the last round first (R106). -/
theorem blockRounds_reversed (w : Window) (ks : List Word) :
    blockRounds (blockRounds w ks).reversed ks.reverse = w.reversed := by
  induction ks generalizing w with
  | nil => rfl
  | cons k ks ih =>
    rw [blockRounds_cons, List.reverse_cons, blockRounds_append, ih]
    exact round_reversed w k

/-- The words of an output block are the window in reverse order (R100, R102). -/
@[simp] theorem unpack4_packReversed (w : Window) : unpack4 (packReversed w) = w.reversed := unpack4_pack4 w.reversed

/-- The words of a block reversed twice are the block (R106). -/
@[simp] theorem packReversed_reversed_unpack4 (b : Block) : packReversed (unpack4 b).reversed = b := pack4_unpack4 b

/-- The transform under the reversed keys undoes the transform (R106). -/
@[simp] theorem crypt_crypt_reversedKeys (b : Block) (r : RoundKeys) : crypt (crypt b r) (reversedKeys r) = b := by
  rw [crypt, crypt, reversedKeys_toList, unpack4_packReversed, blockRounds_reversed, packReversed_reversed_unpack4]

/-- The transform undoes the transform under the reversed keys (R108). -/
@[simp] theorem crypt_reversedKeys_crypt (b : Block) (r : RoundKeys) : crypt (crypt b (reversedKeys r)) r = b := by
  simpa using crypt_crypt_reversedKeys b (reversedKeys r)

/-! ## The block commands -/

/-- The frame of a success whose result is a block (R104). -/
theorem Response.encode_ok_block (b : Block) : (Response.ok b.toList).encode = [0, 0, 0, 0, 16] ++ b.toList := by
  have hlen : unbe32 16#32 = [0, 0, 0, 16] := by decide
  rw [Response.encode_ok, Vector.length_toList, hlen]

/-- Under a context `ENCRYPT_BLOCK` answers a block's encryption (R104). -/
theorem exec_encryptBlock_loaded {s : State} (hv : s.keyValid = true) (b : Block) :
    exec (.encryptBlock b.toList) s = .next (s.respond (.ok (crypt b s.rk).toList)) := by
  simp [exec_eq, loadedBy, responseOf, s.context_loaded hv]

/-- Under a context `DECRYPT_BLOCK` answers a block's transform under the decryption-order view (R105). -/
theorem exec_decryptBlock_loaded {s : State} (hv : s.keyValid = true) (b : Block) :
    exec (.decryptBlock b.toList) s = .next (s.respond (.ok (crypt b (reversedKeys s.rk)).toList)) := by
  simp [exec_eq, loadedBy, responseOf, s.context_loaded hv]

/-- Under a context a block command on any other length only answers `BlockLengthError` (R104, R105). -/
theorem exec_block_wrong_length {s : State} (hv : s.keyValid = true) {d : List Byte} (hd : d.length ≠ 16) {i : Instr}
    (hi : i ∈ [Instr.encryptBlock d, .decryptBlock d]) :
    exec i s = .next (s.respond (.fail .blockLengthError)) := by
  have hnone : toBlock d = none := toBlock_eq_none.2 hd
  simp only [List.mem_cons, List.not_mem_nil, or_false] at hi
  rcases hi with rfl | rfl <;> simp [exec_eq, loadedBy, responseOf, s.context_loaded hv, hnone]

/-- The decryption-order view is the only one with word `i` equal to `RK[31 - i]` (R12). -/
theorem eq_reversedKeys {rk rkd : RoundKeys} (h : ∀ (i : Nat) (_ : i < 32), rkd[i] = rk[31 - i]) : rkd = reversedKeys rk :=
  Vector.ext fun i hi => (h i hi).trans (reversedKeysView rk i hi).symm

/-! ## The obligations -/

/-- Settles O43: the words are the rule's own, the ones that the engine's window moves along. -/
theorem cryptRecurrence : Obligations.CryptRecurrence := by
  intro b k
  obtain ⟨h0, h1, h2, h3⟩ := Window.mk.inj (unpack4_eq_ofSeq b k).symm
  refine ⟨cryptWord b k, h0, h1, h2, h3, fun i hi => cryptWord_add_four b k hi, ?output⟩
  case output => rw [crypt_eq_ofSeq]; rfl

/-- Settles O44: each round of the decryption undoes the encryption's round of the same key. -/
theorem cryptInverse : Obligations.CryptInverse := crypt_crypt_reversedKeys

/-- Settles O45: the transform under the reversed keys is the inverse on both sides, and each command is one of the two. -/
theorem blockCommandsArePermutations : Obligations.BlockCommandsArePermutations := by
  refine ⟨fun r => ?bijective, fun s b hv => ⟨crypt b s.rk, crypt b (reversedKeys s.rk), ?_, ?_, ?_, ?_⟩⟩
  case bijective =>
    exact Function.bijective_iff_has_inverse.2
      ⟨fun b => crypt b (reversedKeys r), fun b => crypt_crypt_reversedKeys b r, fun b => crypt_reversedKeys_crypt b r⟩
  · exact exec_encryptBlock_loaded hv b
  · rw [exec_decryptBlock_loaded hv, crypt_crypt_reversedKeys]; rfl
  · exact exec_decryptBlock_loaded hv b
  · rw [exec_encryptBlock_loaded hv, crypt_reversedKeys_crypt]; rfl

/-- Settles O26: the three outcomes of the two checks, with the state that each leaves written out. -/
theorem encryptBlockResult : Obligations.EncryptBlockResult := by
  refine ⟨fun data => rfl, fun s b hv => ?encrypts, fun s data hv => ?noKey, fun s data hv hlen => ?wrongLength⟩
  case encrypts => rw [exec_encryptBlock_loaded hv, State.respond, Response.encode_ok_block]
  case noKey => rw [exec_without_context hv (d := data) (by simp), State.respond_fail]; rfl
  case wrongLength => rw [exec_block_wrong_length hv hlen (by simp), State.respond_fail]; rfl

/-- Settles O27: keys in the stated order are the decryption-order view that the command uses; the failures are those of `ENCRYPT_BLOCK`. -/
theorem decryptBlockResult : Obligations.DecryptBlockResult := by
  refine ⟨fun data => rfl, fun s b rkd hv hrkd => ?decrypts, fun s data hv => ?noKey, fun s data hv hlen => ?wrongLength⟩
  case decrypts =>
    rw [exec_decryptBlock_loaded hv, State.respond, Response.encode_ok_block, eq_reversedKeys hrkd]
  case noKey => rw [exec_without_context hv (d := data) (by simp), State.respond_fail]; rfl
  case wrongLength => rw [exec_block_wrong_length hv hlen (by simp), State.respond_fail]; rfl

end Sys2Proof.Machine

/-! PROOFS. The padding of 43_padding.md: how many bytes the encoder adds (R115, R116), the decoder's three checks in the rule's order (R117), that
the two undo each other (R120), and the commands `PAD` (R118) and `UNPAD` (R119). -/

namespace Sys2Proof.Machine

/-! ## The encoder -/

/-- Padded data is the data's whole blocks and one more (R116). -/
theorem pad_length_eq_blocks (bs : BlockSize) (data : List Byte) :
    (pad bs data).length = bs.size * (data.length / bs.size + 1) := by
  have hmod : data.length % bs.size < bs.size := Nat.mod_lt _ bs.pos
  have hdiv := Nat.div_add_mod data.length bs.size
  rw [pad_length_eq, padCount, Nat.mul_succ]
  omega

/-- Only one count from 1 to `bs` fills data up to whole blocks (R115). -/
theorem padCount_eq {bs : BlockSize} {len n : Nat} (h1 : 1 ≤ n) (h2 : n ≤ bs.size) (h : (len + n) % bs.size = 0) :
    padCount bs len = n := by
  have hmod : len % bs.size < bs.size := Nat.mod_lt _ bs.pos
  have hdvd : bs.size ∣ len % bs.size + n := Nat.dvd_of_mod_eq_zero (by rw [Nat.mod_add_mod, h])
  have hsum : len % bs.size + n = bs.size := Nat.eq_of_dvd_of_lt_two_mul (by omega) hdvd (by omega)
  rw [padCount]
  omega

/-! ## The decoder -/

/-- The last byte, where the rule reads it (R117). -/
theorem getLast?_eq_byteAt {data : List Byte} (h : data.length ≠ 0) :
    data.getLast? = some (Reference.byteAt data (data.length - 1)) := by
  rw [List.getLast?_eq_getElem?, Reference.byteAt, List.getD_eq_getElem?_getD, List.getElem?_eq_getElem (by omega)]
  rfl

/-- The bytes from place `k` on, where the rule reads them (R6, R117). -/
theorem forall_mem_drop_iff_byteAt {data : List Byte} {k : Nat} {P : Byte → Prop} :
    (∀ b ∈ data.drop k, P b) ↔ ∀ i, k ≤ i → i < data.length → P (Reference.byteAt data i) := by
  have hget (i : Nat) (hi : i < data.length) : Reference.byteAt data i = data[i] := by simp [Reference.byteAt, hi]
  constructor
  · intro h i hk hi
    rw [hget i hi]
    exact h _ (List.mem_drop_iff_getElem.2 ⟨i - k, by omega, by congr 1; omega⟩)
  · intro h b hb
    obtain ⟨i, hi, rfl⟩ := List.mem_drop_iff_getElem.1 hb
    rw [← hget]
    exact h (k + i) (by omega) (by omega)

/-- On whole blocks, with the last byte's value `n`, the decoder makes the second and the third check (R117). -/
theorem unpad_of_whole_blocks {bs : BlockSize} {data : List Byte} {n : Nat} (hne : data.length ≠ 0)
    (hmod : data.length % bs.size = 0) (hn : n = (Reference.byteAt data (data.length - 1)).toNat) :
    unpad bs data =
      if n < 1 ∨ bs.size < n then .error .invalidPaddingValue
      else if ∀ b ∈ data.drop (data.length - n), b.toNat = n then .ok (Reference.memRead data 0 (data.length - n))
      else .error .corruptedPadding := by
  subst hn
  simp [unpad, getLast?_eq_byteAt hne, hmod, Reference.memRead, BitVec.toNat_inj]

/-- The first check fails on just the data that is empty or not whole blocks (R117). -/
theorem unpad_eq_misaligned {bs : BlockSize} {data : List Byte} :
    unpad bs data = .error .misaligned ↔ data.length = 0 ∨ data.length % bs.size ≠ 0 := by
  constructor
  · intro h
    by_contra! hwhole
    rw [unpad_of_whole_blocks hwhole.1 hwhole.2 rfl] at h
    split_ifs at h <;> cases h
  · intro h
    by_cases hne : data.length = 0
    · rw [List.eq_nil_of_length_eq_zero hne]; rfl
    · simp [unpad, getLast?_eq_byteAt hne, h.resolve_left hne]

/-- The decoder undoes the encoder (R120). -/
theorem unpad_pad (bs : BlockSize) (data : List Byte) : unpad bs (pad bs data) = .ok data := by
  obtain ⟨h1, h2⟩ := padCount_bounds bs data.length
  exact unpad_eq_ok.2 ⟨padCount bs data.length, h1, h2, by rw [pad_length_eq_blocks, Nat.mul_mod_right], rfl⟩

/-- The decoder accepts only what the encoder makes (R120): the count of valid padding is the one the encoder adds. -/
theorem pad_of_unpad_eq_ok {bs : BlockSize} {data plain : List Byte} (h : unpad bs data = .ok plain) :
    pad bs plain = data := by
  obtain ⟨n, h1, h2, hmod, rfl⟩ := unpad_eq_ok.1 h
  rw [pad, padCount_eq h1 h2 (by simpa using hmod)]

/-! ## The padding commands -/

/-- Where the decoder gives a result, `UNPAD` answers it (R119). -/
theorem exec_unpad_of_ok {data plain : List Byte} (h : unpad Config.padBs data = .ok plain) (s : State) :
    exec (.unpad data) s = .next (s.respond (.ok plain)) := by
  simp [exec_eq, loadedBy, responseOf, h]

/-- Where the decoder fails, `UNPAD` answers the failure that its failure stands for (R119). -/
theorem exec_unpad_of_error {data : List Byte} {e : UnpadFailure} (h : unpad Config.padBs data = .error e) (s : State) :
    exec (.unpad data) s = .next (s.respond (.fail e.failure)) := by
  simp [exec_eq, loadedBy, responseOf, h]

/-- Both failures of the padding itself are the commands' `PaddingError` (R119, R158). -/
theorem UnpadFailure.failure_of_ne_misaligned {e : UnpadFailure} (h : e ≠ .misaligned) : e.failure = .paddingError := by
  cases e with
  | misaligned => exact absurd rfl h
  | invalidPaddingValue => rfl
  | corruptedPadding => rfl

/-! ## The obligations -/

/-- Settles O46: a multiple of the block size above the data's length has more blocks than the data has whole ones. -/
theorem padLengths : Obligations.PadLengths := by
  refine ⟨fun bs data => ?general, fun data => ?sixteen⟩
  case general =>
    obtain ⟨h1, h2⟩ := padCount_bounds bs data.length
    refine ⟨padCount bs data.length, rfl, h1, h2, rfl, pad_length_eq_blocks bs data, ?longer, ?smallest⟩
    case longer => rw [pad_length_eq]; omega
    case smallest =>
      rintro _ ⟨q, rfl⟩ hlt
      have hq : data.length / bs.size < q := Nat.div_lt_of_lt_mul hlt
      rw [pad_length_eq_blocks]
      exact Nat.mul_le_mul_left _ hq
  case sixteen =>
    rw [pad_length_eq_blocks]
    simp only [Config.padBs]
    omega

/-- Settles O47: the checks on whole blocks are the decoder's, with the last `n` bytes read one by one. -/
theorem unpadChecksInOrder : Obligations.UnpadChecksInOrder := by
  refine fun bs data => ⟨unpad_eq_misaligned.2, fun hne hmod n hn => ?wholeBlocks⟩
  rw [unpad_of_whole_blocks hne hmod hn]
  refine ⟨fun hrange => if_pos hrange, fun h1 h2 ⟨i, hi, hlt, hbyte⟩ => ?corrupted, fun h1 h2 hall => ?accepted⟩
  case corrupted => rw [if_neg (by omega), if_neg fun hall => hbyte (forall_mem_drop_iff_byteAt.1 hall i hi hlt)]
  case accepted => rw [if_neg (by omega), if_pos (forall_mem_drop_iff_byteAt.2 hall)]

/-- Settles O48: the decoder undoes the encoder, and accepts only what it makes. -/
theorem paddingReversible : Obligations.PaddingReversible := ⟨unpad_pad, fun _ _ _ => pad_of_unpad_eq_ok⟩

/-- Settles O32: `PAD` answers the encoder's bytes, whatever the data ends in. -/
theorem padResult : Obligations.PadResult :=
  ⟨fun _ => rfl, fun s data => ⟨pad Config.padBs data, rfl, pad_length_eq_blocks _ data, exec_eq (.pad data) s⟩⟩

/-- Settles O33: valid padding is what the decoder accepts; on whole blocks without it, the decoder's failure is one of the padding. -/
theorem unpadResult : Obligations.UnpadResult := by
  refine ⟨fun _ => rfl, fun s data h => ?misaligned, fun s data plain hmod hpad => ?accepted, fun s data hne hmod hpad => ?rejected⟩
  case misaligned =>
    have hunpad : unpad Config.padBs data = .error .misaligned :=
      unpad_eq_misaligned.2 (h.imp_left List.length_eq_zero_iff.2)
    rw [exec_unpad_of_error hunpad, State.respond_fail]
    rfl
  case accepted =>
    obtain ⟨n, h1, h2, hdata⟩ := hpad
    exact exec_unpad_of_ok (unpad_eq_ok.2 ⟨n, h1, h2, hmod, hdata⟩) s
  case rejected =>
    cases hunpad : unpad Config.padBs data with
    | ok plain =>
      obtain ⟨n, h1, h2, -, hdata⟩ := unpad_eq_ok.1 hunpad
      exact absurd ⟨plain, n, h1, h2, hdata⟩ hpad
    | error e =>
      have hne' : e ≠ .misaligned := by
        rintro rfl
        exact (unpad_eq_misaligned.1 hunpad).elim (hne ∘ List.length_eq_zero_iff.1) (absurd hmod)
      rw [exec_unpad_of_error hunpad, UnpadFailure.failure_of_ne_misaligned hne', State.respond_fail]
      rfl

end Sys2Proof.Machine

/-! PROOFS. The ECB codec of 44_ecb.md: ECB apply one block after the other (R130), ECB encryption and decryption as what happens to the
earlier blocks and to the last (R132, R133, R141), that the decryption undoes the encryption (R140), and what the four commands answer (R134 to R138). -/

namespace Sys2Proof.Machine

/-! ## ECB apply -/

/-- Cutting off the first block of a buffer (R43). -/
theorem splitBlocks_block_append (blk : Block) (b : List Byte) :
    splitBlocks (blk.toList ++ b) = blk :: splitBlocks b := by
  have hlen : (blk.toList ++ b).length / 16 = b.length / 16 + 1 := by simp
  have hblk : blk.toList.length = 16 := by simp
  rw [splitBlocks, hlen]
  simp [takeBlocks, splitBlocks, hblk]

/-- The first block is transformed on its own (R130). -/
theorem ecbApply_block_append (blk : Block) (b : List Byte) (k : RoundKeys) :
    ecbApply (blk.toList ++ b) k = (crypt blk k).toList ++ ecbApply b k := by
  rw [ecbApply, splitBlocks_block_append]
  rfl

/-- ECB apply of joined blocks and what follows them (R130). -/
theorem ecbApply_joinBlocks_append (bs : List Block) (b : List Byte) (k : RoundKeys) :
    ecbApply (joinBlocks bs ++ b) k = joinBlocks (bs.map fun blk => crypt blk k) ++ ecbApply b k := by
  induction bs with
  | nil => rfl
  | cons blk bs ih => simp only [joinBlocks, List.map_cons, List.append_assoc, ecbApply_block_append, ih]

/-- Whole blocks and what follows them are transformed each on its own (R130). -/
theorem ecbApply_append {a : List Byte} (h : a.length % 16 = 0) (b : List Byte) (k : RoundKeys) :
    ecbApply (a ++ b) k = ecbApply a k ++ ecbApply b k := by
  conv_lhs => rw [← joinBlocks_splitBlocks h, ecbApply_joinBlocks_append]
  rfl

/-- ECB apply of one block is the block transform (R130). -/
@[simp] theorem ecbApply_block (blk : Block) (k : RoundKeys) : ecbApply blk.toList k = (crypt blk k).toList := by
  have hnil : ecbApply [] k = [] := rfl
  simpa [hnil] using ecbApply_block_append blk [] k

/-- ECB apply keeps the length of whole blocks (R130). -/
theorem ecbApply_length {b : List Byte} (h : b.length % 16 = 0) (k : RoundKeys) : (ecbApply b k).length = b.length :=
  (ecbAppliesBlockwise b k h).1

/-- ECB apply under the reversed keys undoes ECB apply (R108, R130). -/
theorem ecbApply_ecbApply_reversedKeys {b : List Byte} (h : b.length % 16 = 0) (k : RoundKeys) :
    ecbApply (ecbApply b k) (reversedKeys k) = b := by
  conv_rhs => rw [← joinBlocks_splitBlocks h]
  simp [ecbApply, Function.comp_def]

/-- The transform under one key schedule is injective (R108). -/
theorem crypt_injective (k : RoundKeys) : Function.Injective fun blk => crypt blk k :=
  (blockCommandsArePermutations.1 k).injective

/-- The bytes before what is put behind them (R6). -/
theorem memRead_append_left {b : List Byte} {a n : Nat} (h : a + n ≤ b.length) (c : List Byte) :
    Reference.memRead (b ++ c) a n = Reference.memRead b a n := by
  rw [Reference.memRead, Reference.memRead, List.drop_append_of_le_length (by omega),
    List.take_append_of_le_length (by simp; omega)]

/-- A whole stretch of 16 bytes is a block (R43). -/
theorem exists_block_memRead {b : List Byte} {a : Nat} (h : a + 16 ≤ b.length) :
    ∃ blk : Block, blk.toList = Reference.memRead b a 16 := by
  obtain ⟨blk, -, hblk⟩ := exists_toBlock (b := Reference.memRead b a 16) (by simp [Reference.memRead]; omega)
  exact ⟨blk, hblk⟩

/-- Under one key, two blocks of a result are equal exactly when the blocks they come from are (R130, R139). -/
theorem memRead_ecbApply_eq_iff {b b' : List Byte} {j j' : Nat} (h : b.length % 16 = 0) (h' : b'.length % 16 = 0)
    (hj : 16 * j + 16 ≤ b.length) (hj' : 16 * j' + 16 ≤ b'.length) (k : RoundKeys) :
    Reference.memRead (ecbApply b k) (16 * j) 16 = Reference.memRead (ecbApply b' k) (16 * j') 16 ↔
      Reference.memRead b (16 * j) 16 = Reference.memRead b' (16 * j') 16 := by
  obtain ⟨blk, hblk⟩ := exists_block_memRead hj
  obtain ⟨blk', hblk'⟩ := exists_block_memRead hj'
  rw [(ecbAppliesBlockwise b k h).2 j blk (by omega) hblk, (ecbAppliesBlockwise b' k h').2 j' blk' (by omega) hblk',
    ← hblk, ← hblk', Vector.toList_inj, Vector.toList_inj]
  exact (crypt_injective k).eq_iff

/-! ## Encryption -/

/-- Padded data is whole blocks (R116). -/
theorem pad_length_mod (data : List Byte) : (pad Config.padBs data).length % 16 = 0 := by
  rw [pad_length_eq_blocks]
  exact Nat.mul_mod_right ..

/-- What ECB encryption gives is whole blocks (R132). -/
theorem ecbEncrypt_length_mod (data : List Byte) (rk : RoundKeys) : (ecbEncrypt data rk).length % 16 = 0 := by
  rw [ecbEncrypt_length, Nat.mul_mod_right]

/-- ECB encryption, where the padded buffer is its earlier blocks and a last one (R132). -/
theorem ecbEncrypt_of_pad_eq {d front : List Byte} {last : Block} (hfront : front.length % 16 = 0)
    (h : pad Config.padBs d = front ++ last.toList) (rk : RoundKeys) :
    ecbEncrypt d rk = ecbApply front rk ++ (crypt last rk).toList := by
  rw [ecbEncrypt, h, ecbApply_append hfront, ecbApply_block]

/-- A padded buffer is the data's whole blocks and one block that holds the rest and the padding (R116, R132). -/
theorem exists_pad_eq_append_block (d : List Byte) : ∃ last : Block,
    last.toList = d.drop (16 * (d.length / 16)) ++
      List.replicate (padCount Config.padBs d.length) (BitVec.ofNat 8 (padCount Config.padBs d.length)) ∧
    pad Config.padBs d = d.take (16 * (d.length / 16)) ++ last.toList := by
  obtain ⟨last, -, hlast⟩ := exists_toBlock (b := d.drop (16 * (d.length / 16)) ++
    List.replicate (padCount Config.padBs d.length) (BitVec.ofNat 8 (padCount Config.padBs d.length)))
    (by simp [padCount, Config.padBs]; omega)
  exact ⟨last, hlast, by rw [hlast, pad, ← List.append_assoc, List.take_append_drop]⟩

/-- Whole blocks are padded with a block of sixteen bytes 0x10 (R116, R132). -/
theorem pad_of_whole_blocks {d : List Byte} (h : d.length % 16 = 0) :
    pad Config.padBs d = d ++ (Vector.replicate 16 (0x10 : Byte)).toList := by
  have hcount : padCount Config.padBs d.length = 16 := by simp [padCount, Config.padBs, h]
  rw [pad, hcount]
  rfl

/-- A whole block of the data, found again in the padded data (R115). -/
theorem memRead_pad {d : List Byte} {a : Nat} (h : a + 16 ≤ d.length) :
    Reference.memRead (pad Config.padBs d) a 16 = Reference.memRead d a 16 := memRead_append_left h _

/-! ## Decryption -/

/-- What the 16-byte decoder accepts: whole blocks that end in valid padding (R117). -/
theorem unpad_eq_ok_iff_paddedAs {data plain : List Byte} :
    unpad Config.padBs data = .ok plain ↔ data.length % 16 = 0 ∧ PaddedAs data plain := by
  rw [unpad_eq_ok]
  constructor
  · rintro ⟨n, h1, h2, hmod, hdata⟩
    exact ⟨hmod, n, h1, h2, hdata⟩
  · rintro ⟨hmod, n, h1, h2, hdata⟩
    exact ⟨n, h1, h2, hmod, hdata⟩

/-- Padding is valid, or not, by the last block alone (R117, R141). -/
theorem paddedAs_append_block {front p : List Byte} {last : Block} :
    PaddedAs (front ++ last.toList) p ↔ ∃ q, PaddedAs last.toList q ∧ p = front ++ q := by
  constructor
  · rintro ⟨n, h1, h2, hdata⟩
    have hp : front.length ≤ p.length := by
      have := congrArg List.length hdata
      simp at this
      omega
    obtain ⟨q, rfl⟩ : front <+: p :=
      List.prefix_of_prefix_length_le (List.prefix_append front last.toList) (hdata ▸ List.prefix_append p _) hp
    rw [List.append_assoc, List.append_cancel_left_eq] at hdata
    exact ⟨q, ⟨n, h1, h2, hdata⟩, rfl⟩
  · rintro ⟨q, ⟨n, h1, h2, hlast⟩, rfl⟩
    exact ⟨n, h1, h2, by rw [hlast, List.append_assoc]⟩

/-- ECB decryption of earlier blocks and a last one: the last block alone decides, and the earlier ones are transformed unseen (R133, R141). -/
theorem ecbDecrypt_append_block {front p : List Byte} {last : Block} (hfront : front.length % 16 = 0) (rk : RoundKeys) :
    ecbDecrypt (front ++ last.toList) rk = .ok p ↔
      ∃ q, PaddedAs (crypt last (reversedKeys rk)).toList q ∧ p = ecbApply front (reversedKeys rk) ++ q := by
  have hlen : (ecbApply front (reversedKeys rk) ++ (crypt last (reversedKeys rk)).toList).length % 16 = 0 := by
    simp [ecbApply_length hfront, hfront]
  rw [ecbDecrypt, ecbApply_append hfront, ecbApply_block, unpad_eq_ok_iff_paddedAs, paddedAs_append_block]
  exact and_iff_right hlen

/-- A buffer with a last block is its earlier blocks and that block (R43). -/
theorem exists_append_block {b : List Byte} (h : b.length % 16 = 0) (h16 : 16 ≤ b.length) :
    ∃ (front : List Byte) (last : Block), b = front ++ last.toList ∧ front.length % 16 = 0 := by
  obtain ⟨last, -, hlast⟩ := exists_toBlock (b := b.drop (b.length - 16)) (by simp; omega)
  exact ⟨b.take (b.length - 16), last, by rw [hlast, List.take_append_drop], by simp; omega⟩

/-- Damage to the earlier blocks alone: the decryption still succeeds, with the same bytes after them, and differs in just the damaged
blocks (R141). -/
theorem ecbDecrypt_of_same_last {front front' p : List Byte} {last : Block} {rk : RoundKeys}
    (hlen : front.length = front'.length) (hmod : front.length % 16 = 0) (h : ecbDecrypt (front ++ last.toList) rk = .ok p) :
    ∃ p', ecbDecrypt (front' ++ last.toList) rk = .ok p' ∧ p'.length = p.length ∧
      p.drop front.length = p'.drop front.length ∧
      ∀ j, 16 * j + 16 ≤ front.length →
        (Reference.memRead p (16 * j) 16 = Reference.memRead p' (16 * j) 16 ↔
          Reference.memRead front (16 * j) 16 = Reference.memRead front' (16 * j) 16) := by
  have hmod' : front'.length % 16 = 0 := hlen ▸ hmod
  have hdec := ecbApply_length hmod (reversedKeys rk)
  have hdec' := (ecbApply_length hmod' (reversedKeys rk)).trans hlen.symm
  obtain ⟨q, hq, rfl⟩ := (ecbDecrypt_append_block hmod rk).1 h
  refine ⟨_, (ecbDecrypt_append_block hmod' rk).2 ⟨q, hq, rfl⟩, ?length, ?after, fun j hj => ?blocks⟩
  case length => rw [List.length_append, List.length_append, hdec, hdec']
  case after => rw [List.drop_left' hdec, List.drop_left' hdec']
  case blocks =>
    rw [memRead_append_left (by omega), memRead_append_left (by omega)]
    exact memRead_ecbApply_eq_iff hmod hmod' hj (by omega) _

/-- ECB decryption undoes ECB encryption (R140). -/
theorem ecbDecrypt_ecbEncrypt (d : List Byte) (rk : RoundKeys) : ecbDecrypt (ecbEncrypt d rk) rk = .ok d := by
  rw [ecbDecrypt, ecbEncrypt, ecbApply_ecbApply_reversedKeys (pad_length_mod d), unpad_pad]

/-! ## The commands -/

/-- A decoder's success is the answer (R167). -/
theorem answerUnpad_ok (b : List Byte) (s : State) : answerUnpad (.ok b) s = .next (s.respond (.ok b)) := answerUnpad_eq _ s

/-- A decoder's failure is answered as the failure it stands for (R167). -/
theorem answerUnpad_error (e : UnpadFailure) (s : State) :
    answerUnpad (.error e) s = .next (s.respond (.fail e.failure)) := answerUnpad_eq _ s

/-- The end of a decryption of nothing (R133, R135, R137). -/
theorem answerUnpad_ecbDecrypt_nil (rk : RoundKeys) (s : State) :
    answerUnpad (ecbDecrypt [] rk) s = .next (s.respond (.fail .alignmentError)) := answerUnpad_eq _ s

section
variable {data : List Byte} {rk : RoundKeys} (hmod : data.length % 16 = 0)
include hmod

/-- The end of a decryption whose bytes end in valid padding (R135, R137). -/
theorem answerUnpad_ecbDecrypt_of_paddedAs {plain : List Byte} (hpad : PaddedAs (ecbApply data (reversedKeys rk)) plain)
    (s : State) : answerUnpad (ecbDecrypt data rk) s = .next (s.respond (.ok plain)) := by
  have hok : ecbDecrypt data rk = .ok plain :=
    unpad_eq_ok_iff_paddedAs.2 ⟨by rw [ecbApply_length hmod, hmod], hpad⟩
  rw [hok, answerUnpad_ok]

/-- The end of a decryption whose bytes do not end in valid padding (R135, R137). -/
theorem answerUnpad_ecbDecrypt_of_not_paddedAs (hne : data ≠ [])
    (hpad : ¬ ∃ plain, PaddedAs (ecbApply data (reversedKeys rk)) plain) (s : State) :
    answerUnpad (ecbDecrypt data rk) s = .next (s.respond (.fail .paddingError)) := by
  cases hunpad : ecbDecrypt data rk with
  | ok plain => exact absurd ⟨plain, (unpad_eq_ok_iff_paddedAs.1 hunpad).2⟩ hpad
  | error e =>
    have hwhole : e ≠ .misaligned := by
      rintro rfl
      have hbad := unpad_eq_misaligned.1 hunpad
      rw [ecbApply_length hmod, List.length_eq_zero_iff] at hbad
      exact hbad.elim hne (absurd hmod)
    rw [answerUnpad_error, UnpadFailure.failure_of_ne_misaligned hwhole]

/-- On whole blocks and with a 16-byte key, `DECRYPT_ECB` answers the decryption (R135). -/
theorem exec_decryptEcb_block (k : Block) (s : State) :
    exec (.decryptEcb k.toList data) s = answerUnpad (ecbDecrypt data (keyExpand k)) s := by
  simp [exec, execDecryptEcb, hmod]

/-- On whole blocks and under a context, `DECRYPT_ECB_CTX` answers the decryption (R137). -/
theorem exec_decryptEcbCtx_loaded {s : State} (hv : s.keyValid = true) :
    exec (.decryptEcbCtx data) s = answerUnpad (ecbDecrypt data s.rk) s := by
  simp [exec, execDecryptEcbCtx, s.context_loaded hv, hmod]

/-- On whole blocks and with any other key length, `DECRYPT_ECB` only answers `KeyLengthError` (R135). -/
theorem exec_decryptEcb_wrong_key {key : List Byte} (hkey : key.length ≠ 16) (s : State) :
    exec (.decryptEcb key data) s = .next (s.respond (.fail .keyLengthError)) := by
  simp [exec, execDecryptEcb, hmod, toBlock_eq_none.2 hkey, raise_eq]

end

/-- On a buffer that is not whole blocks, `DECRYPT_ECB` only answers `AlignmentError`, whatever the key (R135). -/
theorem exec_decryptEcb_misaligned {data : List Byte} (h : data.length % 16 ≠ 0) (key : List Byte) (s : State) :
    exec (.decryptEcb key data) s = .next (s.respond (.fail .alignmentError)) := by
  simp [exec, execDecryptEcb, h, raise_eq]

/-- On a buffer that is not whole blocks, `DECRYPT_ECB_CTX` under a context only answers `AlignmentError` (R137). -/
theorem exec_decryptEcbCtx_misaligned {data : List Byte} (h : data.length % 16 ≠ 0) {s : State} (hv : s.keyValid = true) :
    exec (.decryptEcbCtx data) s = .next (s.respond (.fail .alignmentError)) := by
  simp [exec, execDecryptEcbCtx, s.context_loaded hv, h, raise_eq]

/-- With a 16-byte key `ENCRYPT_ECB` answers the encryption (R134). -/
theorem exec_encryptEcb_block (k : Block) (data : List Byte) (s : State) :
    exec (.encryptEcb k.toList data) s = .next (s.respond (.ok (ecbEncrypt data (keyExpand k)))) := by
  simp [exec, execEncryptEcb, answerOk_eq]

/-- With any other key length `ENCRYPT_ECB` only answers `KeyLengthError` (R134). -/
theorem exec_encryptEcb_wrong_key {key : List Byte} (hkey : key.length ≠ 16) (data : List Byte) (s : State) :
    exec (.encryptEcb key data) s = .next (s.respond (.fail .keyLengthError)) := by
  simp [exec, execEncryptEcb, toBlock_eq_none.2 hkey, raise_eq]

/-- Under a context `ENCRYPT_ECB_CTX` answers the encryption (R136). -/
theorem exec_encryptEcbCtx_loaded {s : State} (hv : s.keyValid = true) (data : List Byte) :
    exec (.encryptEcbCtx data) s = .next (s.respond (.ok (ecbEncrypt data s.rk))) := by
  simp [exec, execEncryptEcbCtx, s.context_loaded hv, answerOk_eq]

/-! ## The obligations -/

/-- Settles O28: the two outcomes of the length test on the key. -/
theorem encryptEcbResult : Obligations.EncryptEcbResult := by
  refine ⟨fun _ _ => rfl, fun s k data => ?encrypts, fun s key data hkey => ?wrongKey⟩
  case encrypts => exact ⟨_, rfl, ecbEncrypt_length data _, exec_encryptEcb_block k data s⟩
  case wrongKey => rw [exec_encryptEcb_wrong_key hkey, State.respond_fail]; rfl

/-- Settles O30: the two outcomes of the test for a context. -/
theorem encryptEcbCtxResult : Obligations.EncryptEcbCtxResult := by
  refine ⟨fun _ => rfl, fun s data hv => ?encrypts, fun s data hv => ?noKey⟩
  case encrypts => exact ⟨_, rfl, ecbEncrypt_length data _, exec_encryptEcbCtx_loaded hv data⟩
  case noKey => rw [exec_without_context hv (d := data) (by simp), State.respond_fail]; rfl

/-- Settles O29: the checks in the order the command makes them, the last two of which are the decoder's. -/
theorem decryptEcbResult : Obligations.DecryptEcbResult := by
  refine ⟨fun _ _ => rfl, fun s key data h => ?misaligned, fun s key data hmod hkey => ?wrongKey, fun s k => ?empty,
    fun s k data plain hmod hpad => ?decrypts, fun s k data hmod hne hpad => ?badPadding⟩
  case misaligned => rw [exec_decryptEcb_misaligned h, State.respond_fail]; rfl
  case wrongKey => rw [exec_decryptEcb_wrong_key hmod hkey, State.respond_fail]; rfl
  case empty => rw [exec_decryptEcb_block rfl, answerUnpad_ecbDecrypt_nil, State.respond_fail]; rfl
  case decrypts => exact (exec_decryptEcb_block hmod k s).trans (answerUnpad_ecbDecrypt_of_paddedAs hmod hpad s)
  case badPadding =>
    rw [exec_decryptEcb_block hmod, answerUnpad_ecbDecrypt_of_not_paddedAs hmod hne hpad, State.respond_fail]
    rfl

/-- Settles O31: as `DECRYPT_ECB`, with the test for a context first and in the place of the key's. -/
theorem decryptEcbCtxResult : Obligations.DecryptEcbCtxResult := by
  refine ⟨fun _ => rfl, fun s data hv => ?noKey, fun s data hv h => ?misaligned, fun s data plain hv hmod hpad => ?decrypts,
    fun s data hv hmod hne hpad => ?badPadding⟩
  case noKey => rw [exec_without_context hv (d := data) (by simp), State.respond_fail]; rfl
  case misaligned =>
    have hexec : exec (.decryptEcbCtx data) s = .next (s.respond (.fail .alignmentError)) := by
      rcases h with h | rfl
      · exact exec_decryptEcbCtx_misaligned h hv
      · rw [exec_decryptEcbCtx_loaded rfl hv, answerUnpad_ecbDecrypt_nil]
    rw [hexec, State.respond_fail]
    rfl
  case decrypts => exact (exec_decryptEcbCtx_loaded hmod hv).trans (answerUnpad_ecbDecrypt_of_paddedAs hmod hpad s)
  case badPadding =>
    rw [exec_decryptEcbCtx_loaded hmod hv, answerUnpad_ecbDecrypt_of_not_paddedAs hmod hne hpad, State.respond_fail]
    rfl

/-- Settles O34: the four commands load nothing, and their answers are the same under any context and under none. -/
theorem keylessCommandsIgnoreContext : Obligations.KeylessCommandsIgnoreContext := by
  intro key data i hi
  obtain ⟨hl, hr⟩ : loadedBy i = none ∧ ∀ c, responseOf i c = responseOf i none := by
    simp only [List.mem_cons, List.not_mem_nil, or_false] at hi
    rcases hi with rfl | rfl | rfl | rfl <;> exact ⟨rfl, fun _ => rfl⟩
  refine ⟨(responseOf i none).encode, fun s => ?_⟩
  rw [exec_of_loadedBy_none hl, hr]
  rfl

/-- Settles O35: under the context of a key both forms use the same round keys, and both test the alignment before they decrypt. -/
theorem ecbFormsAgree : Obligations.EcbFormsAgree := by
  refine fun s k d hv hrk => ⟨?encrypt, ?decrypt⟩
  case encrypt => rw [exec_encryptEcbCtx_loaded hv, exec_encryptEcb_block, hrk]
  case decrypt =>
    by_cases hmod : d.length % 16 = 0
    · rw [exec_decryptEcbCtx_loaded hmod hv, exec_decryptEcb_block hmod, hrk]
    · rw [exec_decryptEcbCtx_misaligned hmod hv, exec_decryptEcb_misaligned hmod]

/-- Settles O50: the padded buffer is the data's whole blocks and one block more, and ECB apply takes the two apart. -/
theorem ecbPadBlock : Obligations.EcbPadBlock := by
  refine fun d rk => ⟨rfl, ecbEncrypt_length d rk, by rw [ecbEncrypt_length]; omega, ?lastBlock, fun hmod => ?wholeBlocks⟩
  case lastBlock =>
    obtain ⟨last, hlast, hpad⟩ := exists_pad_eq_append_block d
    obtain ⟨h1, h2⟩ := padCount_bounds Config.padBs d.length
    exact ⟨_, last, h1, h2, hlast, ecbEncrypt_of_pad_eq (by simp; omega) hpad rk⟩
  case wholeBlocks => exact ecbEncrypt_of_pad_eq hmod (pad_of_whole_blocks hmod) rk

/-- Settles O51: the padding leaves whole blocks where they are, and the block transform is injective. -/
theorem ecbKeepsBlockEquality : Obligations.EcbKeepsBlockEquality := by
  intro rk d d' j j' hj hj'
  have hlen (x : List Byte) : x.length ≤ (pad Config.padBs x).length := by simp [pad]
  rw [ecbEncrypt, ecbEncrypt, memRead_ecbApply_eq_iff (pad_length_mod d) (pad_length_mod d') (hj.trans (hlen d))
    (hj'.trans (hlen d')), memRead_pad hj, memRead_pad hj']

/-- Settles O52: what the encryption answers is whole blocks, which the decryption takes back to the buffer. -/
theorem ecbRoundTrip : Obligations.EcbRoundTrip := by
  refine ⟨fun s s' k d => ⟨_, exec_encryptEcb_block k d s, ?inlineKey⟩,
    fun s d hv => ⟨_, exec_encryptEcbCtx_loaded hv d, ?context⟩⟩
  case inlineKey => rw [exec_decryptEcb_block (ecbEncrypt_length_mod d _), ecbDecrypt_ecbEncrypt, answerUnpad_ok]; rfl
  case context => rw [exec_decryptEcbCtx_loaded (ecbEncrypt_length_mod d _) hv, ecbDecrypt_ecbEncrypt, answerUnpad_ok]; rfl

/-- Settles O53: a buffer is its earlier blocks and the last, and the decryption looks for padding in the last alone. -/
theorem ecbEarlierDamageUndetected : Obligations.EcbEarlierDamageUndetected := by
  refine ⟨fun _ _ => rfl, fun s k b p hmod h => ?inlineKey, fun s b p hv hmod h => ?context,
    fun rk b last hmod h16 hlast => ?decided, fun rk b b' p hlen hmod h16 hlast h => ?damage⟩
  case inlineKey => rw [exec_decryptEcb_block hmod, h, answerUnpad_ok]; rfl
  case context => rw [exec_decryptEcbCtx_loaded hmod hv, h, answerUnpad_ok]; rfl
  case decided =>
    obtain ⟨front, last', rfl, hfront⟩ := exists_append_block hmod h16
    obtain rfl : last = last' := by simpa [Vector.toList_inj] using hlast
    simp only [ecbDecrypt_append_block hfront]
    exact ⟨fun ⟨_, q, hq, _⟩ => ⟨q, hq⟩, fun ⟨q, hq⟩ => ⟨_, q, hq, rfl⟩⟩
  case damage =>
    obtain ⟨front, last, rfl, hfront⟩ := exists_append_block hmod h16
    obtain ⟨front', last', rfl, -⟩ := exists_append_block (hlen ▸ hmod) (hlen ▸ h16)
    have hlen' : front.length = front'.length := by simpa using hlen
    obtain rfl : last = last' := by simpa [Vector.toList_inj] using hlast
    obtain ⟨p', hp', hplen, hafter, hblocks⟩ := ecbDecrypt_of_same_last hlen' hfront h
    refine ⟨p', hp', hplen, by simpa using hafter, fun j hj => ?_⟩
    have hj' : 16 * j + 16 ≤ front.length := by simp at hj; omega
    rw [memRead_append_left hj', memRead_append_left (hlen' ▸ hj')]
    exact hblocks j hj'

end Sys2Proof.Machine

/-! PROOFS. The exceptions of 60_exceptions.md: what a failing command leaves (R153, R154), who raises `NoKeyError` (R159), and the machine's
step as the rule's `Step` (R167), with the rule's pseudocode tied to the machine's functions one by one. -/

namespace Sys2Proof.Machine

/-! ## Failures -/

/-- A failure's frame is sent for that failure alone: its first byte is the code, and no success begins with it (R56, R153). -/
theorem Response.encode_eq_fail {r : Response} {e : Failure} : r.encode = [e.code, 0, 0, 0, 0] ↔ r = .fail e := by
  constructor
  · intro h
    cases r with
    | ok b => exact absurd (List.cons.inj h).1.symm e.code_ne_zero
    | fail e' =>
      rw [Response.encode_fail] at h
      rw [Failure.code_injective (List.cons.inj h).1]
  · rintro rfl
    exact Response.encode_fail e

/-- A frame that does not begin with the status `OK` is a failure's (R56). -/
theorem Response.eq_fail_of_head {r : Response} (h : r.encode.head? ≠ some 0) : ∃ e, r = .fail e := by
  cases r with
  | ok b => exact absurd rfl h
  | fail e => exact ⟨e, rfl⟩

/-- Bytes are a block or have another length, and the length test says which (R39). -/
theorem toBlock_cases (b : List Byte) : (b.length ≠ 16 ∧ toBlock b = none) ∨ ∃ blk : Block, b = blk.toList := by
  by_cases h : b.length = 16
  · obtain ⟨blk, -, rfl⟩ := exists_toBlock h
    exact .inr ⟨blk, rfl⟩
  · exact .inl ⟨h, toBlock_eq_none.2 h⟩

/-- A command that fails loads nothing (R154). -/
theorem loadedBy_eq_none_of_fail {i : Instr} {c : Option RoundKeys} {e : Failure} (h : responseOf i c = .fail e) :
    loadedBy i = none := by
  refine loadedBy_eq_none.2 ?_
  rintro key rfl hlen
  obtain ⟨k, -, rfl⟩ := exists_toBlock hlen
  simp [responseOf] at h

/-! ## The end of a command that decodes padding -/

/-- What a command answers whose result is the padding decoder's: `UnpadStatus` (R167). -/
def unpadResponse : Except UnpadFailure (List Byte) → Response
  | .ok b => .ok b
  | .error e => .fail e.failure

theorem responseOf_unpad (data : List Byte) (c : Option RoundKeys) :
    responseOf (.unpad data) c = unpadResponse (unpad Config.padBs data) := by
  cases h : unpad Config.padBs data <;> simp [responseOf, unpadResponse, h]

theorem responseOf_decryptEcb_block {data : List Byte} (hmod : data.length % 16 = 0) (k : Block) (c : Option RoundKeys) :
    responseOf (.decryptEcb k.toList data) c = unpadResponse (ecbDecrypt data (keyExpand k)) := by
  simp only [responseOf, toBlock_toList, hmod]; rfl

theorem responseOf_decryptEcbCtx_loaded {data : List Byte} (hmod : data.length % 16 = 0) (rk : RoundKeys) :
    responseOf (.decryptEcbCtx data) (some rk) = unpadResponse (ecbDecrypt data rk) := by
  simp only [responseOf, hmod]; rfl

/-- The padding decoder never brings about `NoKeyError` (R159). -/
theorem unpadResponse_ne_noKeyError (r : Except UnpadFailure (List Byte)) : unpadResponse r ≠ .fail .noKeyError := by
  rcases r with e | b
  · cases e <;> simp [unpadResponse, UnpadFailure.failure]
  · simp [unpadResponse]

/-! ## Who raises `NoKeyError` -/

/-- There is no context exactly while `KEY_VALID = 0` (R14). -/
theorem State.context_eq_none {s : State} : s.context = none ↔ s.keyValid = false := by
  simp [State.context]

/-- `NoKeyError` is the answer of just the four commands that need a context, when there is none (R159). -/
theorem responseOf_eq_noKeyError {i : Instr} {c : Option RoundKeys} : responseOf i c = .fail .noKeyError ↔
    c = none ∧ ∃ d, i ∈ [Instr.encryptBlock d, .decryptBlock d, .encryptEcbCtx d, .decryptEcbCtx d] := by
  constructor
  · intro h
    cases i with
    | encryptBlock d | decryptBlock d =>
      cases c with
      | none => exact ⟨rfl, d, by simp⟩
      | some rk => cases hb : toBlock d <;> simp [responseOf, hb] at h
    | encryptEcbCtx d =>
      cases c with
      | none => exact ⟨rfl, d, by simp⟩
      | some rk => simp [responseOf] at h
    | decryptEcbCtx d =>
      cases c with
      | none => exact ⟨rfl, d, by simp⟩
      | some rk =>
        by_cases hmod : d.length % 16 = 0
        · rw [responseOf_decryptEcbCtx_loaded hmod] at h
          exact absurd h (unpadResponse_ne_noKeyError _)
        · simp [responseOf, hmod] at h
    | construct key | encryptEcb key d => cases hk : toBlock key <;> simp [responseOf, hk] at h
    | decryptEcb key d =>
      by_cases hmod : d.length % 16 = 0
      · rcases toBlock_cases key with ⟨-, hnone⟩ | ⟨k, rfl⟩
        · simp [responseOf, hmod, hnone] at h
        · rw [responseOf_decryptEcb_block hmod] at h
          exact absurd h (unpadResponse_ne_noKeyError _)
      · simp [responseOf, hmod] at h
    | pad d => simp [responseOf] at h
    | unpad d =>
      rw [responseOf_unpad] at h
      exact absurd h (unpadResponse_ne_noKeyError _)
  · rintro ⟨rfl, d, hi⟩
    simp only [List.mem_cons, List.not_mem_nil, or_false] at hi
    rcases hi with rfl | rfl | rfl | rfl <;> rfl

/-! ## Responses and the rule's answers -/

/-- A response as the rule's `Step` returns it (R167). -/
def Response.answer : Response → Reference.Answer
  | .ok b => .ok b
  | .fail e => .error e

@[simp] theorem Response.answer_ok (b : List Byte) : (Response.ok b).answer = .ok b := rfl

@[simp] theorem Response.answer_fail (e : Failure) : (Response.fail e).answer = .error e := rfl

/-- The rule's `UNBE32` is the machine's (R32): byte `j` is the same eight bits, shifted down. -/
@[simp] theorem reference_unbe32 (w : Word) : Reference.unbe32 w = unbe32 w := rfl

/-- The rule's response frame is the machine's (R55, R167). -/
theorem reference_responseFrame (r : Response) : Reference.responseFrame r.answer = r.encode := by
  cases r with
  | ok b => simp [Reference.responseFrame, Response.encode_ok]
  | fail e => rw [Response.encode_fail]; cases e <;> rfl

/-! ## Round keys by index -/

/-- Round keys that are the first 32 of the rule's words by index (R11). -/
def KeysAgree (rk : RoundKeys) (k : Nat → Word) : Prop := ∀ (i : Nat) (_ : i < 32), rk[i] = k i

/-- The key schedule is the rule's (R92). -/
theorem keysAgree_keyExpand (key : Block) : KeysAgree (keyExpand key) (Reference.keyExpand key.toList) :=
  fun _ hi => keyExpand_getElem key hi

/-- The decryption-order view is the rule's (R12, R106). -/
theorem KeysAgree.reverse {rk : RoundKeys} {k : Nat → Word} (h : KeysAgree rk k) :
    KeysAgree (reversedKeys rk) (Reference.reverse k) :=
  fun i hi => (reversedKeysView rk i hi).trans (h (31 - i) (by omega))

/-- The rule's recurrence reads only 32 round keys, so its 36 words are the machine's (R101). -/
theorem KeysAgree.roundWord {rk : RoundKeys} {k : Nat → Word} (h : KeysAgree rk k) (b : Block) :
    ∀ n < 36, Reference.roundWord b.toList k n = cryptWord b rk n
  | 0, _ | 1, _ | 2, _ | 3, _ => rfl
  | n + 4, hn => by
    rw [cryptWord_add_four b rk (by omega), h n (by omega), Reference.roundWord, h.roundWord b n (by omega),
      h.roundWord b (n + 1) (by omega), h.roundWord b (n + 2) (by omega), h.roundWord b (n + 3) (by omega)]
    rfl

/-- The block transform is the rule's (R103). -/
theorem KeysAgree.crypt {rk : RoundKeys} {k : Nat → Word} (h : KeysAgree rk k) (b : Block) :
    Reference.crypt b.toList k = (crypt b rk).toList := by
  simp (disch := omega) only [Reference.crypt, reference_unbe32, h.roundWord b, crypt_eq_ofSeq]
  rfl

/-! ## ECB apply -/

/-- The rule's ECB apply transforms the first block on its own (R130). -/
theorem reference_ecbApply_block_append (blk : Block) (b : List Byte) (k : Nat → Word) :
    Reference.ecbApply (blk.toList ++ b) k = Reference.crypt blk.toList k ++ Reference.ecbApply b k := by
  have hlen : (blk.toList ++ b).length / 16 = b.length / 16 + 1 := by simp
  have hfirst : Reference.memRead (blk.toList ++ b) 0 16 = blk.toList := by
    rw [memRead_append_left (by simp), memRead_all (by simp)]
  have hlater (j : Nat) : Reference.memRead (blk.toList ++ b) (16 * (j + 1)) 16 = Reference.memRead b (16 * j) 16 := by
    rw [Reference.memRead, Nat.mul_succ, Nat.add_comm, ← List.drop_drop, List.drop_left' (by simp)]
    rfl
  simp only [Reference.ecbApply, hlen, List.range_succ_eq_map, List.flatMap_cons, List.flatMap_map, Nat.mul_zero,
    Nat.succ_eq_add_one, hfirst, hlater]

/-- ECB apply of whole blocks is the rule's (R130). -/
theorem KeysAgree.ecbApply {rk : RoundKeys} {k : Nat → Word} (h : KeysAgree rk k) {b : List Byte}
    (hmod : b.length % 16 = 0) : Reference.ecbApply b k = ecbApply b rk := by
  rw [← joinBlocks_splitBlocks hmod]
  generalize splitBlocks b = bs
  induction bs with
  | nil => rfl
  | cons blk bs ih => rw [joinBlocks, reference_ecbApply_block_append, ecbApply_block_append, ih, h.crypt]

/-- ECB encryption is the rule's (R132). -/
theorem KeysAgree.ecbEncrypt {rk : RoundKeys} {k : Nat → Word} (h : KeysAgree rk k) (data : List Byte) :
    Reference.ecbEncrypt data k = ecbEncrypt data rk := h.ecbApply (pad_length_mod data)

/-! ## The padding decoder -/

/-- The rule's `UnpadStatus` of `Unpad` is the end of the machine's command: the same three checks in the same order (R117, R167). -/
theorem reference_unpadStatus16 (data : List Byte) :
    Reference.unpadStatus16 data = (unpadResponse (unpad Config.padBs data)).answer := by
  by_cases hbad : data.length = 0 ∨ data.length % 16 ≠ 0
  · rw [unpad_eq_misaligned.2 hbad, Reference.unpadStatus16, if_pos hbad]
    rfl
  obtain ⟨hne, hmod⟩ : data.length ≠ 0 ∧ data.length % 16 = 0 := by simpa using hbad
  rw [unpad_of_whole_blocks hne hmod rfl, Reference.unpadStatus16, if_neg hbad]
  simp only [forall_mem_drop_iff_byteAt, Config.padBs]
  generalize (Reference.byteAt data (data.length - 1)).toNat = last
  by_cases hrange : last < 1 ∨ 16 < last
  · rw [if_pos hrange, if_pos hrange]
    rfl
  rw [if_neg hrange, if_neg hrange]
  by_cases hall : ∀ i, data.length - last ≤ i → i < data.length → (Reference.byteAt data i).toNat = last
  · rw [if_pos hall, if_neg fun ⟨i, hlt, hi, hbyte⟩ => hbyte (hall i hi hlt)]
    rfl
  · obtain ⟨i, hi, hlt, hbyte⟩ : ∃ i, data.length - last ≤ i ∧ i < data.length ∧ (Reference.byteAt data i).toNat ≠ last := by
      simpa using hall
    rw [if_neg hall, if_pos ⟨i, hlt, hi, hbyte⟩]
    rfl

/-- The end of a decryption is the rule's (R133, R167). -/
theorem KeysAgree.ecbDecryptStatus {rk : RoundKeys} {k : Nat → Word} (h : KeysAgree rk k) {data : List Byte}
    (hmod : data.length % 16 = 0) :
    Reference.ecbDecryptStatus data k = (unpadResponse (ecbDecrypt data rk)).answer := by
  rw [Reference.ecbDecryptStatus, h.reverse.ecbApply hmod, reference_unpadStatus16]
  rfl

/-! ## The rule's `Step` -/

/-- The state holds the rule's context: the flag and the 32 round keys (R10, R167). -/
structure State.Holds (s : State) (c : Reference.Context) : Prop where
  keyValid : s.keyValid = c.keyValid
  keys : KeysAgree s.rk c.rk

/-- A command leaves the context that the rule's `Step` returns (R167). -/
theorem State.Holds.run {s : State} {c : Reference.Context} (h : s.Holds c) (i : Instr) :
    (s.loadOptional (loadedBy i)).Holds (Reference.run c i).1 := by
  cases i with
  | construct key =>
    rcases toBlock_cases key with ⟨hlen, hnone⟩ | ⟨k, rfl⟩
    · simpa [Reference.run, loadedBy, hlen, hnone] using h
    · have hrun : (Reference.run c (.construct k.toList)).1 = ⟨true, Reference.keyExpand k.toList⟩ := by
        simp [Reference.run]
      rw [hrun, loadedBy, toBlock_toList]
      exact ⟨rfl, keysAgree_keyExpand k⟩
  | _ => exact h

/-- A command answers what the rule's `Step` returns (R167). -/
theorem State.Holds.run_answer {s : State} {c : Reference.Context} (h : s.Holds c) (i : Instr) :
    (Reference.run c i).2 = (responseOf i s.context).answer := by
  obtain ⟨v, k⟩ := c
  obtain ⟨rfl, hk⟩ := h
  cases i with
  | construct key | encryptEcb key data =>
    rcases toBlock_cases key with ⟨hlen, hnone⟩ | ⟨key, rfl⟩
    · simp [Reference.run, responseOf, hlen, hnone]
    · simp [Reference.run, responseOf, (keysAgree_keyExpand key).ecbEncrypt]
  | encryptBlock data | decryptBlock data =>
    cases hv : s.keyValid with
    | false => simp [Reference.run, responseOf, s.context_none hv]
    | true =>
      rcases toBlock_cases data with ⟨hlen, hnone⟩ | ⟨b, rfl⟩
      · simp [Reference.run, responseOf, s.context_loaded hv, hlen, hnone]
      · simp [Reference.run, responseOf, s.context_loaded hv, hk.crypt, hk.reverse.crypt]
  | decryptEcb key data =>
    by_cases hmod : data.length % 16 = 0
    · rcases toBlock_cases key with ⟨hlen, hnone⟩ | ⟨key, rfl⟩
      · simp [Reference.run, responseOf, hmod, hlen, hnone]
      · rw [responseOf_decryptEcb_block hmod, ← (keysAgree_keyExpand key).ecbDecryptStatus hmod]
        simp [Reference.run, hmod]
    · simp [Reference.run, responseOf, hmod]
  | encryptEcbCtx data =>
    cases hv : s.keyValid with
    | false => simp [Reference.run, responseOf, s.context_none hv]
    | true => simp [Reference.run, responseOf, s.context_loaded hv, hk.ecbEncrypt]
  | decryptEcbCtx data =>
    cases hv : s.keyValid with
    | false => simp [Reference.run, responseOf, s.context_none hv]
    | true =>
      by_cases hmod : data.length % 16 = 0
      · rw [s.context_loaded hv, responseOf_decryptEcbCtx_loaded hmod, ← hk.ecbDecryptStatus hmod]
        simp [Reference.run, hmod]
      · simp [Reference.run, responseOf, s.context_loaded hv, hmod]
  | pad data => rfl
  | unpad data => rw [responseOf_unpad, ← reference_unpadStatus16]; rfl

/-! ## The obligations -/

/-- Settles O9: the rule's `Decode` is the machine's, and from a state that holds the rule's context a command leaves the rule's next one and
answers what the rule returns. -/
theorem stepMatchesReference : Obligations.StepMatchesReference := by
  intro s f rest he
  have hholds : State.Holds { s with events := rest } ⟨s.keyValid, fun i => s.rk.toList.getD i 0⟩ :=
    ⟨rfl, fun i hi => by simp [hi]⟩
  have hdecode : (decode f).toOption = Reference.decode Config.maxBufLen f := decodeWith_toOption Config.maxBufLen f
  cases hd : decode f with
  | error e =>
    rw [hd, toOption_error] at hdecode
    refine ⟨_, step_illegal he hd, ?_⟩
    simp only [Reference.step, ← hdecode]
    exact ⟨hholds.keyValid, hholds.keys, by rw [← Response.answer_fail, reference_responseFrame]; rfl, rfl, rfl⟩
  | ok i =>
    rw [hd, toOption_ok] at hdecode
    refine ⟨_, step_frame he hd, ?_⟩
    simp only [Reference.step, ← hdecode]
    obtain ⟨hv, hk⟩ := hholds.run i
    exact ⟨hv, hk, by rw [hholds.run_answer i, reference_responseFrame]; simp, by simp, by simp⟩

/-- Settles O13: a frame that does not begin with `OK` is a failure's, and a command that fails loads nothing. -/
theorem failureLeavesState : Obligations.FailureLeavesState := by
  intro i s
  refine ⟨_, (responseOf i s.context).encode, exec_eq i s, by simp, fun hfail => ?failure, fun hv => by simp [hv]⟩
  obtain ⟨e, he⟩ := Response.eq_fail_of_head hfail
  rw [loadedBy_eq_none_of_fail he, he]
  exact ⟨⟨e, Response.encode_fail e⟩, rfl⟩

/-- Settles O16: of all answers only `NoKeyError` has its frame, and of all commands only the four answer it, when no context is loaded. -/
theorem noKeyErrorExactly : Obligations.NoKeyErrorExactly := by
  intro s t i h
  cases (exec_eq i s).symm.trans h
  rw [State.respond_responses, State.loadOptional_responses, List.append_cancel_left_eq, List.singleton_inj,
    ← State.context_eq_none, ← responseOf_eq_noKeyError]
  exact Response.encode_eq_fail (e := .noKeyError)

end Sys2Proof.Machine

/-! PROOFS. Reset and hazards: no context survives a Reset event, and the statement about how one comes to exist. -/

namespace Sys2Proof.Machine

/-- After a step that takes a Reset event, `KEY_VALID` is 0 (R180). -/
theorem step_reset_keyValid {s t : State} {rest : List Event} (he : s.events = .reset :: rest) (h : step s = .next t) :
    t.keyValid = false := by
  cases (step_reset he).symm.trans h
  exact State.resetEvent_keyValid _

/-- Settles O18: of the three things a step can do to the context (O17), leaving it alone and the Reset event end without one where there was
none, and what is left is the `CONSTRUCT`. -/
theorem contextComesFromConstructOnly : Obligations.ContextComesFromConstructOnly := by
  refine ⟨rfl, fun s rest he => ⟨_, step_reset he, State.resetEvent_keyValid _⟩, fun s t hnone h hsome => ?_⟩
  rcases contextChangesOnlyByConstructOrReset s t h with ⟨hv, -⟩ | ⟨rest, he⟩ | hconstruct
  · simp [hv, hnone] at hsome
  · simp [step_reset_keyValid he h] at hsome
  · exact hconstruct

end Sys2Proof.Machine

/-! PROOFS. What every frame, step and run keeps: a frame that decodes is an encoding (R58, R60), the response frame as a code (R55, R56),
the frame of every command (R13), the two invariants (R11, R55), and runs event by event (R44, R55, R193). -/

namespace Sys2Proof.Machine

/-! ## Frames -/

/-- Settles O2: the decoder accepts only encodings of commands that fit. -/
theorem encodeDecodeRoundTrip : Obligations.EncodeDecodeRoundTrip := by
  intro maxBuf f i h
  obtain ⟨hframe, hkey, hdata, -⟩ := decodeWith_eq_ok.1 h
  exact ⟨hframe, by simp [Instr.wellFormedFor, Instr.keyFits, Instr.dataFits, hkey, hdata]⟩

/-- Settles O5: the decoder is evaluated on the nine frames. -/
theorem sampleFramesDecode : Obligations.SampleFramesDecode := by
  unfold Obligations.SampleFramesDecode
  decide

/-! ## Responses -/

/-- `RLEN` counts the result bytes that follow it, while the count fits 32 bits (R55). -/
theorem Response.encode_layout {r : Response} (h : r.rdata.length < 4294967296) : ∃ l0 l1 l2 l3,
    r.encode = r.status :: l0 :: l1 :: l2 :: l3 :: r.rdata ∧ (be32 l0 l1 l2 l3).toNat = r.rdata.length := by
  refine ⟨_, _, _, _, rfl, ?_⟩
  rw [be32_bytes, BitVec.toNat_ofNat]
  exact Nat.mod_eq_of_lt h

/-- The response frame determines the response (R55, R56): the status tells success from each failure, and the bytes after `RLEN` are the
result. -/
theorem Response.encode_injective {r r' : Response} (h : r.encode = r'.encode) : r = r' := by
  cases r' with
  | fail e => exact encode_eq_fail.1 (h.trans (encode_fail e))
  | ok b' =>
    cases r with
    | fail e => exact (encode_eq_fail.1 (h.symm.trans (encode_fail e))).symm
    | ok b =>
      rw [encode_ok, encode_ok] at h
      rw [(List.append_inj (List.cons.inj h).2 rfl).2]

/-- Settles O6: the codes are those of the table, and the frame's layout is read off. -/
theorem responseFrameFormat : Obligations.ResponseFrameFormat :=
  ⟨⟨fun _ => rfl, rfl, rfl, rfl, rfl, rfl, rfl⟩, fun _ => Response.encode_layout, Response.encode_fail,
    fun _ _ => Response.encode_injective⟩

/-! ## Commands -/

/-- Settles O10: neither a step nor a command has another end than a next state. -/
theorem everyCommandEnds : Obligations.EveryCommandEnds := by
  refine ⟨exists_step, fun i s => ?_⟩
  obtain ⟨t, he, hr⟩ := exec_responds i s
  exact ⟨t, _, he, hr⟩

/-- Settles O12: a command sends its answer, and writes the context only where it loads one. -/
theorem commandFrame : Obligations.CommandFrame := by
  intro i s t h
  cases (exec_eq i s).symm.trans h
  exact ⟨by simp, by simp, ⟨(responseOf i s.context).encode, by simp⟩,
    fun hkey => exec_keeps_context (exec_eq i s) (loadedBy_eq_none.2 hkey)⟩

/-- Settles O8: the step on a frame that decodes and the command do the same. -/
theorem stepRunsDecodedCommand : Obligations.StepRunsDecodedCommand :=
  fun _ _ _ i he hd => (step_frame he hd).trans (exec_eq i _).symm

/-- Settles O19: the Reset event clears the flag and keeps what was sent and what is to come; a step without an event writes nothing. -/
theorem resetEventAndIdle : Obligations.ResetEventAndIdle :=
  ⟨fun _ _ he => ⟨_, step_reset he, by simp⟩, fun _ => step_idle⟩

/-! ## The two invariants -/

/-- What a command loads is the key schedule of some key (R93). -/
theorem exists_key_of_loadedBy {i : Instr} {rk : RoundKeys} (h : loadedBy i = some rk) : ∃ key : Block, rk = keyExpand key := by
  cases i with
  | construct key =>
    obtain ⟨k, -, rfl⟩ := Option.map_eq_some_iff.1 h
    exact ⟨k, rfl⟩
  | _ => cases h

/-- The invariant through the context: whatever context is loaded is a key schedule (R14). -/
theorem State.contextFromKey_iff {s : State} :
    s.ContextFromKey ↔ ∀ rk, s.context = some rk → ∃ key : Block, rk = keyExpand key := by
  simp [State.ContextFromKey, State.context_eq_some]

/-- Settles O21: a step leaves the context, clears it, or loads the key schedule of a `CONSTRUCT`'s key. -/
theorem stepKeepsContextFromKey : Obligations.StepKeepsContextFromKey := by
  intro s t hs h
  rw [State.contextFromKey_iff] at hs ⊢
  rcases step_cases s with ⟨-, e⟩ | ⟨_, -, e⟩ | ⟨_, _, _, -, -, e⟩ | ⟨_, _, i, -, -, e⟩ <;> cases e.symm.trans h
  case inl | inr.inr.inl => exact hs
  case inr.inl => intro rk hrk; cases hrk
  case inr.inr.inr =>
    intro rk hrk
    rw [State.respond_context, State.loadOptional_context, State.context_withEvents, Option.or_eq_some_iff] at hrk
    rcases hrk with hloaded | ⟨-, hbefore⟩
    · exact exists_key_of_loadedBy hloaded
    · exact hs rk hbefore

/-- A response whose length fits `RLEN` makes a well-formed frame (R55, R56). -/
theorem Response.encode_wellFormed {r : Response} (h : r.rdata.length < 4294967296) : WellFormedResponse r.encode := by
  obtain ⟨l0, l1, l2, l3, hframe, hlen⟩ := Response.encode_layout h
  refine ⟨r.status, l0, l1, l2, l3, r.rdata, hframe, ?_⟩
  cases r with
  | ok b => exact ⟨Nat.zero_le 6, hlen, fun hstatus => absurd rfl hstatus⟩
  | fail e => exact ⟨e.code_le, hlen, fun _ => rfl⟩

/-- What a decoded command answers fits `RLEN`, since `MAX_BUF_LEN` leaves room for a block of padding (R57). -/
theorem responseOf_wellFormed {f : List Byte} {i : Instr} (hd : decode f = .ok i) (c : Option RoundKeys) :
    WellFormedResponse (responseOf i c).encode := by
  obtain ⟨-, -, hdata, -⟩ := decodeWith_eq_ok.1 hd
  have hlen := responseOf_length_le i c
  rw [Config.maxBufLen] at hdata
  exact Response.encode_wellFormed (by omega)

/-- Every frame a step sends is well formed. -/
theorem step_sends_wellFormed {s t : State} (h : step s = .next t) :
    ∃ added, t.responses = s.responses ++ added ∧ ∀ f ∈ added, WellFormedResponse f := by
  rcases step_cases s with ⟨-, e⟩ | ⟨_, -, e⟩ | ⟨_, _, _, -, -, e⟩ | ⟨_, _, i, -, hd, e⟩ <;> cases e.symm.trans h
  case inl | inr.inl => exact ⟨[], by simp⟩
  case inr.inr.inl =>
    refine ⟨[_], rfl, ?_⟩
    simpa only [List.forall_mem_singleton] using Response.encode_wellFormed (r := .fail .illegalCommand) (by simp)
  case inr.inr.inr =>
    refine ⟨[(responseOf i s.context).encode], by simp, ?_⟩
    simpa only [List.forall_mem_singleton] using responseOf_wellFormed hd s.context

/-- Settles O22: what a step sends is well formed, and it alters nothing that was sent. -/
theorem stepKeepsResponsesWellFormed : Obligations.StepKeepsResponsesWellFormed := by
  intro s t hs h
  obtain ⟨added, hr, hadded⟩ := step_sends_wellFormed h
  rw [State.ResponsesWellFormed, hr, List.forall_mem_append]
  exact ⟨hs, hadded⟩

/-- Settles O23: after reset there is neither a context nor a response. -/
theorem resetMeetsInvariants : Obligations.ResetMeetsInvariants :=
  ⟨fun hv => absurd hv Bool.false_ne_true, List.forall_mem_nil _⟩

/-! ## Runs -/

/-- Alike states agree on the flag, which says whether there is a context (R14). -/
theorem State.Alike.keyValid_eq {s s' : State} (h : s.Alike s') : s.keyValid = s'.keyValid := by
  have hc := congrArg Option.isSome h.context
  simpa [State.context, apply_ite Option.isSome] using hc

/-- Alike states hold the same round keys once they are loaded (R14). -/
theorem State.Alike.rk_eq {s s' : State} (h : s.Alike s') (hv : s.keyValid = true) : s.rk = s'.rk :=
  (State.context_eq_some.1 (h.context.symm.trans (s.context_loaded hv))).2.symm

/-- Settles O20: without a context, machines that differ in `RK` alone are alike, and stay so in every run. -/
theorem unloadedKeysInvisible : Obligations.UnloadedKeysInvisible := by
  intro n s rk hv
  have hnone : State.context { s with rk := rk } = none := State.context_none _ hv
  have halike : s.Alike { s with rk := rk } := ⟨(s.context_none hv).trans hnone.symm, rfl⟩
  obtain ⟨t, t', added, ht, ht', htt, hr, hr'⟩ := halike.run n
  exact ⟨t, t', ht, ht', hr.trans hr'.symm, htt.events, htt.keyValid_eq, htt.rk_eq⟩

/-- Giving a state the events it has changes nothing. -/
theorem State.withEvents_self {s : State} {es : List Event} (he : s.events = es) : { s with events := es } = s := he ▸ rfl

theorem countFrames_cons (e : Event) (es : List Event) : countFrames (e :: es) = countFrames [e] + countFrames es := by
  cases e with
  | reset => exact (Nat.zero_add _).symm
  | frame f => exact Nat.add_comm _ 1

/-- Taking an event sends one response for a frame and none for a reset, and does the same whatever events follow (R44, R55). -/
theorem step_takes_event (e : Event) (s : State) :
    ∃ (t : State) (added : List (List Byte)), t.responses = s.responses ++ added ∧ added.length = countFrames [e] ∧
      ∀ rest, step { s with events := e :: rest } = .next { t with events := rest } := by
  cases e with
  | reset =>
    refine ⟨s.resetEvent, [], by simp, rfl, fun rest => ?_⟩
    exact step_reset (s := { s with events := .reset :: rest }) rfl
  | frame f =>
    cases hd : decode f with
    | error _ => exact ⟨s.respond (.fail .illegalCommand), [_], rfl, rfl, fun rest => step_illegal rfl hd⟩
    | ok i =>
      refine ⟨(s.loadOptional (loadedBy i)).respond (responseOf i s.context), [(responseOf i s.context).encode], by simp,
        rfl, fun rest => (step_frame rfl hd).trans ?_⟩
      cases loadedBy i <;> rfl

/-- A run over a list of events sends one response for each of its frames, and does the same whatever events follow (R44, R55, R193). -/
theorem core_run_takes_events (es : List Event) (s : State) :
    ∃ (t : State) (added : List (List Byte)), t.responses = s.responses ++ added ∧ added.length = countFrames es ∧
      ∀ rest, core.run es.length { s with events := es ++ rest } = .next { t with events := rest } := by
  induction es generalizing s with
  | nil => exact ⟨s, [], by simp, rfl, fun rest => rfl⟩
  | cons e es ih =>
    obtain ⟨u, first, hu, hfirst, hstep⟩ := step_takes_event e s
    obtain ⟨t, later, ht, hlater, hrun⟩ := ih u
    refine ⟨t, first ++ later, by rw [ht, hu, List.append_assoc], ?_,
      fun rest => (core_run_succ (hstep (es ++ rest)) es.length).trans (hrun rest)⟩
    rw [List.length_append, hfirst, hlater, ← countFrames_cons]

/-- A run over all the events goes on from where the run over the first of them ended. -/
theorem core_run_rest {s u : State} {es es' : List Event} (he : s.events = es ++ es') (h : core.run es.length s = .next u) :
    core.run s.events.length s = core.run es'.length u := by
  rw [he, List.length_append, core_run_add h]

/-- Settles O11: a run takes its events one after the other, and what it does with the first of them does not depend on the later ones. -/
theorem runAnswersEveryFrame : Obligations.RunAnswersEveryFrame := by
  refine ⟨fun s => ?all, fun s es es' he => ?append, fun s es f rest he => ?answer⟩
  case all =>
    obtain ⟨t, added, ht, hadded, hrun⟩ := core_run_takes_events s.events s
    have hall := hrun []
    rw [State.withEvents_self (List.append_nil _).symm] at hall
    exact ⟨_, hall, rfl, by simp [ht, hadded], by simp [ht]⟩
  case append =>
    obtain ⟨u, -, -, -, hrun⟩ := core_run_takes_events es s
    have hfirst := hrun []
    have hbegin := hrun es'
    rw [List.append_nil] at hfirst
    rw [State.withEvents_self he] at hbegin
    exact ⟨{ u with events := es' }, hfirst, hbegin, rfl, core_run_rest he hbegin⟩
  case answer =>
    obtain ⟨u, before, hu, hbefore, hrun⟩ := core_run_takes_events es s
    obtain ⟨v, answer, hv, hanswer, hstep⟩ := step_takes_event (.frame f) u
    obtain ⟨t, later, ht, -, hlast⟩ := core_run_takes_events rest v
    obtain ⟨r, rfl⟩ := List.length_eq_one_iff.1 hanswer
    have hbegin := hrun (.frame f :: rest)
    rw [State.withEvents_self he] at hbegin
    have hend := hlast []
    rw [List.append_nil] at hend
    have hall : core.run s.events.length s = .next { t with events := [] } :=
      (core_run_rest he hbegin).trans ((core_run_succ (hstep rest) rest.length).trans hend)
    exact ⟨_, _, _, r, hbegin, rfl, by simp [hu, hbefore], hstep rest, hv, hall, by simp [ht, hv, hu, ← hbefore]⟩

end Sys2Proof.Machine
